-- ==== Sys2Proof/Word.lean ====
section
/-! DEFINITION. The word types of the engine. -/

namespace Sys2Proof

/-- A data byte: `XLEN` is 8 bits (00_scope.md R5). -/
abbrev Byte := BitVec 8

/-- An address, and the width of PC: `ALEN` is 16 bits (00_scope.md R5). -/
abbrev Addr := BitVec 16

end Sys2Proof
end

