-- ==== Sys2Proof/Config.lean ====
section
/-! DEFINITION. The parameters of the engine (00_scope.md R5, R6), the names its table is written in, and the free
values of power-on. No step changes any of them (10_state.md R23). -/

namespace Sys2Proof

/-- The ten addressing-mode tags (30_encoding.md R61). -/
inductive Mode where
  | immediate
  | zeroPage
  | zeroPageX
  | zeroPageY
  | absolute
  | absoluteX
  | absoluteY
  | indirectX
  | indirectY
  | noneAddressing
  deriving DecidableEq, Repr

/-- The operand byte-width each tag implies (30_encoding.md R61). -/
def Mode.width : Mode → Nat
  | .immediate => 1
  | .zeroPage => 1
  | .zeroPageX => 1
  | .zeroPageY => 1
  | .absolute => 2
  | .absoluteX => 2
  | .absoluteY => 2
  | .indirectX => 1
  | .indirectY => 1
  | .noneAddressing => 0

/-- The mnemonics of the table (30_encoding.md R73); BRK is also spelt HLT (R74). -/
inductive Mnemonic where
  | brk
  | lda
  | tax
  | inx
  | cmp
  deriving DecidableEq, Repr

/-- Whether the mnemonic's handler calls the resolver (30_encoding.md R71, 40_engine.md R85). -/
def Mnemonic.needsAddress : Mnemonic → Bool
  | .brk => false
  | .lda => true
  | .tax => false
  | .inx => false
  | .cmp => true

/-- The two values of the open parameter `TOP_WRAP` (00_scope.md R6): what happens where PC or the second byte of a
16-bit access would pass 0xFFFF. The value the spec takes is `Machine.topWrap`. -/
inductive TopWrap where
  | fault
  | wrap
  deriving DecidableEq, Repr

/-- The value the spec takes of the open parameter `HALT_OPCODE` (00_scope.md R6, log entry 5). -/
def Config.haltOpcode : Byte := 0x00

/-- `MEMSIZE`: 65 536 bytes of memory (00_scope.md R5). -/
def Config.memSize : Nat := 65536

/-- What a byte nothing has written reads as: memory is zero-filled at construction (10_state.md R22, R26). -/
def Config.zeroFill : Byte := 0x00

/-- `LOAD_BASE`: where `load` puts the image (00_scope.md R5). -/
def Config.loadBase : Addr := 0x8000

/-- `RESET_VECTOR`: the address of the vector's low byte (00_scope.md R5). -/
def Config.resetVector : Addr := 0xFFFC

/-- The longest image `load` accepts (20_memory.md R40). -/
def Config.maxImage : Nat := 0x8000

/-- DESIGN CHOICE (log entry 2): what the inert slot `SP` holds. The spec gives it no value and nothing reads it
(10_state.md R13). -/
def Config.spSlot : Byte := 0x00

/-- Free value (log entry 3): A at construction, unspecified (10_state.md R26). -/
opaque Config.powerOnA : Byte

/-- Free value (log entry 3): X at construction, unspecified (10_state.md R26). -/
opaque Config.powerOnX : Byte

/-- Free value (log entry 3): Y at construction, unspecified (10_state.md R26). -/
opaque Config.powerOnY : Byte

/-- Free value (log entry 3): P at construction, unspecified (10_state.md R26). -/
opaque Config.powerOnP : Byte

/-- Free value (log entry 3): PC at construction, unspecified (10_state.md R26). -/
opaque Config.powerOnPc : Addr

end Sys2Proof
end

