-- ==== Sys2Proof/Syntax.lean ====
section
/-! DEFINITION. The instructions: one constructor per row of spec/opcode_table.json (30_encoding.md R56). -/

namespace Sys2Proof

/-- An instruction with its operand bytes assembled (30_encoding.md R55, R59): `nn` is the byte `op8`, `nnnn` the
little-endian value `op16`. Every operand value is legal (R60). -/
inductive Instr where
  /-- `BRK` (halt), byte 00: 45_halt.md R130. -/
  | brk
  /-- `LDA #$nn`, byte A9: 41_load.md R101. -/
  | ldaImmediate (nn : Byte)
  /-- `LDA $nn`, byte A5: R102. -/
  | ldaZeroPage (nn : Byte)
  /-- `LDA $nn,X`, byte B5: R103. -/
  | ldaZeroPageX (nn : Byte)
  /-- `LDA $nnnn`, byte AD: R104. -/
  | ldaAbsolute (nnnn : Addr)
  /-- `LDA $nnnn,X`, byte BD: R105. -/
  | ldaAbsoluteX (nnnn : Addr)
  /-- `LDA $nnnn,Y`, byte B9: R106. -/
  | ldaAbsoluteY (nnnn : Addr)
  /-- `LDA ($nn,X)`, byte A1: R107. -/
  | ldaIndirectX (nn : Byte)
  /-- `LDA ($nn),Y`, byte B1: R108. -/
  | ldaIndirectY (nn : Byte)
  /-- `TAX`, byte AA: 42_transfer.md R110. -/
  | tax
  /-- `INX`, byte E8: 43_increment.md R115. -/
  | inx
  /-- `CMP #$nn`, byte C9: 44_compare.md R121. -/
  | cmpImmediate (nn : Byte)
  /-- `CMP $nn`, byte C5: R122. -/
  | cmpZeroPage (nn : Byte)
  /-- `CMP $nn,X`, byte D5: R123. -/
  | cmpZeroPageX (nn : Byte)
  /-- `CMP $nnnn`, byte CD: R124. -/
  | cmpAbsolute (nnnn : Addr)
  /-- `CMP $nnnn,X`, byte DD: R125. -/
  | cmpAbsoluteX (nnnn : Addr)
  /-- `CMP $nnnn,Y`, byte D9: R126. -/
  | cmpAbsoluteY (nnnn : Addr)
  /-- `CMP ($nn,X)`, byte C1: R127. -/
  | cmpIndirectX (nn : Byte)
  /-- `CMP ($nn),Y`, byte D1: R128. -/
  | cmpIndirectY (nn : Byte)
  deriving DecidableEq, Repr

/-- The mnemonic column of the table (30_encoding.md R56). -/
def Instr.mnemonic : Instr → Mnemonic
  | .brk => .brk
  | .ldaImmediate _ => .lda
  | .ldaZeroPage _ => .lda
  | .ldaZeroPageX _ => .lda
  | .ldaAbsolute _ => .lda
  | .ldaAbsoluteX _ => .lda
  | .ldaAbsoluteY _ => .lda
  | .ldaIndirectX _ => .lda
  | .ldaIndirectY _ => .lda
  | .tax => .tax
  | .inx => .inx
  | .cmpImmediate _ => .cmp
  | .cmpZeroPage _ => .cmp
  | .cmpZeroPageX _ => .cmp
  | .cmpAbsolute _ => .cmp
  | .cmpAbsoluteX _ => .cmp
  | .cmpAbsoluteY _ => .cmp
  | .cmpIndirectX _ => .cmp
  | .cmpIndirectY _ => .cmp

/-- The addressing-mode column of the table (30_encoding.md R56). -/
def Instr.mode : Instr → Mode
  | .brk => .noneAddressing
  | .ldaImmediate _ => .immediate
  | .ldaZeroPage _ => .zeroPage
  | .ldaZeroPageX _ => .zeroPageX
  | .ldaAbsolute _ => .absolute
  | .ldaAbsoluteX _ => .absoluteX
  | .ldaAbsoluteY _ => .absoluteY
  | .ldaIndirectX _ => .indirectX
  | .ldaIndirectY _ => .indirectY
  | .tax => .noneAddressing
  | .inx => .noneAddressing
  | .cmpImmediate _ => .immediate
  | .cmpZeroPage _ => .zeroPage
  | .cmpZeroPageX _ => .zeroPageX
  | .cmpAbsolute _ => .absolute
  | .cmpAbsoluteX _ => .absoluteX
  | .cmpAbsoluteY _ => .absoluteY
  | .cmpIndirectX _ => .indirectX
  | .cmpIndirectY _ => .indirectY

/-- The operand byte-width (30_encoding.md R55): the instruction's length is one more. -/
def Instr.width (i : Instr) : Nat := i.mode.width

end Sys2Proof
end

