-- ==== Sys2Proof/WellFormed.lean ====
section
/-! DEFINITION. Instruction Descriptors (30_encoding.md R56) and the contract a table of them must meet
(40_engine.md R94, 30_encoding.md R61, R71). -/

namespace Sys2Proof

/-- A descriptor's handler reference: the instruction it makes of its operand bytes, one constructor per format
F0, F1, F2 of 30_encoding.md R55. `I` holds the instructions of the table, which need not be those of this spec's. -/
inductive HandlerOf (I : Type) where
  | implied (i : I)
  | op8 (make : Byte → I)
  | op16 (make : Addr → I)

/-- A handler of the instructions of this spec's table. -/
abbrev Handler := HandlerOf Instr

/-- How many operand bytes the handler takes. -/
def HandlerOf.width {I : Type} : HandlerOf I → Nat
  | .implied _ => 0
  | .op8 _ => 1
  | .op16 _ => 2

/-- The instructions the handler makes. -/
def HandlerOf.makes {I : Type} (i : I) : HandlerOf I → Prop
  | .implied j => i = j
  | .op8 make => ∃ nn, i = make nn
  | .op16 make => ∃ nnnn, i = make nnnn

/-- The instruction the handler makes of operand bytes of zero. -/
def HandlerOf.sample {I : Type} : HandlerOf I → I
  | .implied i => i
  | .op8 make => make 0
  | .op16 make => make 0

/-- An Instruction Descriptor: {mnemonic, addressing mode, operand width, handler} (30_encoding.md R56), over any
mnemonics `M` and instructions `I` (40_engine.md R94). -/
structure DescriptorOf (M I : Type) where
  mnemonic : M
  mode : Mode
  width : Nat
  handler : HandlerOf I

/-- A descriptor of this spec's mnemonics and instructions. -/
abbrev Descriptor := DescriptorOf Mnemonic Instr

/-- An Instruction Set Table, the open parameter `ISET` (00_scope.md R6): the descriptors by opcode byte. -/
abbrev TableOf (M I : Type) := List (Byte × DescriptorOf M I)

/-- The width field agrees with the mode tag (30_encoding.md R61) and with the handler. -/
def DescriptorOf.widthAgrees {M I : Type} (d : DescriptorOf M I) : Bool :=
  d.width == d.mode.width && d.handler.width == d.width

/-- The handler is the one the mnemonic and the tag name. -/
def DescriptorOf.handlerAgrees (d : Descriptor) : Bool :=
  d.handler.sample.mnemonic == d.mnemonic && d.handler.sample.mode == d.mode

/-- A handler that needs an address has a tag that gives one: what fails this is the malformed descriptor of
60_exceptions.md R142. -/
def DescriptorOf.addressable (d : Descriptor) : Bool :=
  !d.mnemonic.needsAddress || d.mode != .noneAddressing

/-- What the syntax of a descriptor of this spec's instructions shows of the contract of 40_engine.md R94. The whole
contract, meanings included and over any instructions, is `DescriptorContract`, which the open parameters carry. -/
def DescriptorOf.wellFormed (d : Descriptor) : Bool :=
  d.widthAgrees && d.handlerAgrees && d.addressable

/-- A table of descriptors: one descriptor per opcode byte, each well-formed. -/
def tableWellFormed (rows : TableOf Mnemonic Instr) : Bool :=
  decide (rows.map Prod.fst).Nodup && rows.all (fun r => r.2.wellFormed)

/-- An instruction needs an address exactly where its tag gives one. The operand values themselves are never
checked: any byte is a legal `op8` and any pair a legal `op16` (30_encoding.md R60), so every instruction is
well-formed. -/
def Instr.wellFormed (i : Instr) : Bool :=
  i.mnemonic.needsAddress == (i.mode != .noneAddressing)

end Sys2Proof
end

