-- ==== Sys2Proof/Decode.lean ====
section
/-! DEFINITION. The Instruction Set Table, the decoder and the encoder (30_encoding.md R55 to R60), with the
byte-order and extension helpers they share with the machine. -/

namespace Sys2Proof

/-- `zext_16(b)` (00_scope.md R7). -/
def zext16 (b : Byte) : Addr := b.setWidth 16

/-- The 16-bit value of two bytes, `(hi << 8) | lo` (20_memory.md R37). -/
def word16 (lo hi : Byte) : Addr := hi ++ lo

/-- Bits 7:0 of a 16-bit value (20_memory.md R37). -/
def lowByte (w : Addr) : Byte := w.extractLsb' 0 8

/-- Bits 15:8 of a 16-bit value (20_memory.md R37). -/
def highByte (w : Addr) : Byte := w.extractLsb' 8 8

/-- The halt and the register-only rows of the table (30_encoding.md R56). -/
def isetImplied : TableOf Mnemonic Instr :=
  [ (0x00, ⟨.brk, .noneAddressing, 0, .implied .brk⟩),
    (0xAA, ⟨.tax, .noneAddressing, 0, .implied .tax⟩),
    (0xE8, ⟨.inx, .noneAddressing, 0, .implied .inx⟩) ]

/-- The load rows of the table (30_encoding.md R56). -/
def isetLoad : TableOf Mnemonic Instr :=
  [ (0xA1, ⟨.lda, .indirectX, 1, .op8 .ldaIndirectX⟩),
    (0xA5, ⟨.lda, .zeroPage, 1, .op8 .ldaZeroPage⟩),
    (0xA9, ⟨.lda, .immediate, 1, .op8 .ldaImmediate⟩),
    (0xAD, ⟨.lda, .absolute, 2, .op16 .ldaAbsolute⟩),
    (0xB1, ⟨.lda, .indirectY, 1, .op8 .ldaIndirectY⟩),
    (0xB5, ⟨.lda, .zeroPageX, 1, .op8 .ldaZeroPageX⟩),
    (0xB9, ⟨.lda, .absoluteY, 2, .op16 .ldaAbsoluteY⟩),
    (0xBD, ⟨.lda, .absoluteX, 2, .op16 .ldaAbsoluteX⟩) ]

/-- The compare rows of the table (30_encoding.md R56). -/
def isetCompare : TableOf Mnemonic Instr :=
  [ (0xC1, ⟨.cmp, .indirectX, 1, .op8 .cmpIndirectX⟩),
    (0xC5, ⟨.cmp, .zeroPage, 1, .op8 .cmpZeroPage⟩),
    (0xC9, ⟨.cmp, .immediate, 1, .op8 .cmpImmediate⟩),
    (0xCD, ⟨.cmp, .absolute, 2, .op16 .cmpAbsolute⟩),
    (0xD1, ⟨.cmp, .indirectY, 1, .op8 .cmpIndirectY⟩),
    (0xD5, ⟨.cmp, .zeroPageX, 1, .op8 .cmpZeroPageX⟩),
    (0xD9, ⟨.cmp, .absoluteY, 2, .op16 .cmpAbsoluteY⟩),
    (0xDD, ⟨.cmp, .absoluteX, 2, .op16 .cmpAbsoluteX⟩) ]

/-- The value the spec takes of `ISET`: the 19 rows of 30_encoding.md R56. The bytes are the spec's own choice (log
entry 5). -/
def isetRows : TableOf Mnemonic Instr := isetImplied ++ isetLoad ++ isetCompare

/-- `ISET[opcode]` in any table: the whole byte is matched, and nothing else (30_encoding.md R57); a byte not listed
has no descriptor (R60). -/
def lookup {M I : Type} (table : TableOf M I) (opcode : Byte) : Option (DescriptorOf M I) :=
  (table.find? (fun r => r.1 == opcode)).map Prod.snd

/-- `ISET[opcode]` in the spec's table. -/
def iset (opcode : Byte) : Option Descriptor := lookup isetRows opcode

/-- The operand width of the descriptor of a byte; a byte without one takes none. -/
def operandWidth {M I : Type} (table : TableOf M I) (opcode : Byte) : Nat :=
  match lookup table opcode with
  | none => 0
  | some d => d.width

/-- Why bytes are no instruction. -/
inductive DecodeError where
  /-- There is no byte to decode. -/
  | noBytes
  /-- The byte has no descriptor (30_encoding.md R60). -/
  | unknownOpcode (opcode : Byte)
  /-- The bytes end inside the instruction; the machine never meets this, its memory has no end to run into. -/
  | truncated (opcode : Byte)
  deriving DecidableEq, Repr

/-- Operand assembly (30_encoding.md R59): what the handler makes of the bytes after the opcode, and the rest. -/
def assemble {I : Type} (opcode : Byte) : HandlerOf I → List Byte → Except DecodeError (I × List Byte)
  | .implied i, rest => .ok (i, rest)
  | .op8 make, nn :: rest => .ok (make nn, rest)
  | .op16 make, ll :: hh :: rest => .ok (make (word16 ll hh), rest)
  | .op8 _, [] => .error (.truncated opcode)
  | .op16 _, [] => .error (.truncated opcode)
  | .op16 _, [_] => .error (.truncated opcode)

/-- The decoder over any table (30_encoding.md R57): the instruction the bytes begin with, and the bytes after it. -/
def decodeWith {M I : Type} (table : TableOf M I) : List Byte → Except DecodeError (I × List Byte)
  | [] => .error .noBytes
  | opcode :: rest =>
    match lookup table opcode with
    | none => .error (.unknownOpcode opcode)
    | some d => assemble opcode d.handler rest

/-- The decoder over the spec's table. -/
def decode (bytes : List Byte) : Except DecodeError (Instr × List Byte) := decodeWith isetRows bytes

/-- The opcode byte of an instruction (30_encoding.md R56). -/
def Instr.opcode : Instr → Byte
  | .brk => 0x00
  | .ldaImmediate _ => 0xA9
  | .ldaZeroPage _ => 0xA5
  | .ldaZeroPageX _ => 0xB5
  | .ldaAbsolute _ => 0xAD
  | .ldaAbsoluteX _ => 0xBD
  | .ldaAbsoluteY _ => 0xB9
  | .ldaIndirectX _ => 0xA1
  | .ldaIndirectY _ => 0xB1
  | .tax => 0xAA
  | .inx => 0xE8
  | .cmpImmediate _ => 0xC9
  | .cmpZeroPage _ => 0xC5
  | .cmpZeroPageX _ => 0xD5
  | .cmpAbsolute _ => 0xCD
  | .cmpAbsoluteX _ => 0xDD
  | .cmpAbsoluteY _ => 0xD9
  | .cmpIndirectX _ => 0xC1
  | .cmpIndirectY _ => 0xD1

/-- A 16-bit operand as it is stored: low byte first (30_encoding.md R55). -/
def bytesOf16 (w : Addr) : List Byte := [lowByte w, highByte w]

/-- The operand bytes of an instruction (30_encoding.md R55). -/
def Instr.operandBytes : Instr → List Byte
  | .brk => []
  | .ldaImmediate nn => [nn]
  | .ldaZeroPage nn => [nn]
  | .ldaZeroPageX nn => [nn]
  | .ldaAbsolute nnnn => bytesOf16 nnnn
  | .ldaAbsoluteX nnnn => bytesOf16 nnnn
  | .ldaAbsoluteY nnnn => bytesOf16 nnnn
  | .ldaIndirectX nn => [nn]
  | .ldaIndirectY nn => [nn]
  | .tax => []
  | .inx => []
  | .cmpImmediate nn => [nn]
  | .cmpZeroPage nn => [nn]
  | .cmpZeroPageX nn => [nn]
  | .cmpAbsolute nnnn => bytesOf16 nnnn
  | .cmpAbsoluteX nnnn => bytesOf16 nnnn
  | .cmpAbsoluteY nnnn => bytesOf16 nnnn
  | .cmpIndirectX nn => [nn]
  | .cmpIndirectY nn => [nn]

/-- The encoder: the bytes of an instruction at ascending addresses (30_encoding.md R55). -/
def encode (i : Instr) : List Byte := i.opcode :: i.operandBytes

/-- The three bytes of the longest instruction, read from a number whose bit 0 is bit 0 of the opcode byte
(30_encoding.md R55); bits at `nbits` and above are zero. -/
def tableBytes (nbits w : Nat) : List Byte :=
  let v := w % 2 ^ nbits
  [BitVec.ofNat 8 v, BitVec.ofNat 8 (v / 256), BitVec.ofNat 8 (v / 65536)]

/-- The instruction the decoder reads from the bits `w` of a row of spec/opcode_table.json. -/
def decodeTableWord (nbits w : Nat) : Option Instr :=
  match decode (tableBytes nbits w) with
  | .ok (i, _) => some i
  | .error _ => none

end Sys2Proof
end

