-- ==== Sys2Proof/Machine/State.lean ====
section
/-! DEFINITION. The state of the engine (10_state.md), its values at construction and after reset, and the reasons an
operation on it can stop. -/

namespace Sys2Proof.Machine

/-- `RS`, the run state (10_state.md R20). -/
inductive RunState where
  | halted
  | running
  deriving DecidableEq, Repr

/-- The kinds of fault a step raises (60_exceptions.md R141 to R143). -/
inductive FaultKind where
  /-- The fetched byte has no descriptor (R141). -/
  | unknownOpcode
  /-- Address resolution under NoneAddressing (R142); unreachable with the 19-row table. -/
  | invalidAddressingMode
  /-- The instruction would put PC beyond 0xFFFF (R143). -/
  | addressOverrun
  deriving DecidableEq, Repr

/-- A fault report (60_exceptions.md R140): its kind, the opcode byte and the address it was fetched from. -/
structure FaultReport where
  kind : FaultKind
  opcode : Byte
  addr : Addr
  deriving DecidableEq, Repr

/-- Memory as (address, byte) pairs. The canonical form is `Memory.wf`; an unlisted address reads as
`Config.zeroFill` (10_state.md R22). -/
abbrev Memory := List Host.Cell

/-- The whole state of the engine (10_state.md). -/
structure State where
  /-- The accumulator (R10). -/
  a : Byte
  /-- Index register X (R11). -/
  x : Byte
  /-- Index register Y (R12). -/
  y : Byte
  /-- The inert stack-pointer slot (R13): no operation of the engine reads or writes it. -/
  sp : Byte
  /-- The program counter (R14). -/
  pc : Addr
  /-- The status register, packed: C Z I D B U V N are bits 0 to 7 (R15). -/
  p : Byte
  /-- The memory (R22). -/
  mem : Memory
  /-- The run state (R20). -/
  rs : RunState
  /-- The last fault report (R21). -/
  err : Option FaultReport
  deriving DecidableEq, Repr

/-- Errors that leave the state as it was, returned by host operations of Machine/HostOps.lean. No step answers one:
a step's faults are next states (60_exceptions.md R140; log entry 1). -/
inductive Fault where
  /-- `AddressOverrun` with no opcode and no address: a host-issued `read16` or `write16` at 0xFFFF under
  `TOP_WRAP = fault` (20_memory.md R36, 60_exceptions.md R143). Raised by `hostRead16` and `hostWrite`. Safe: the spec
  says so. -/
  | addressOverrun
  /-- `LoadOverflow(len)` (60_exceptions.md R144). Raised by `load`. Safe: the spec says so. -/
  | loadOverflow (len : Nat)
  /-- A read of SP, which holds no value (10_state.md R13). Raised by `inspect`. Safe: the spec says so. -/
  | stackPointerRead
  deriving DecidableEq, Repr

/-- Refusals. -/
inductive Refusal where
  /-- An instruction with no meaning yet. Every instruction of the table has one, so no arm of `exec` answers it.
  Safe. -/
  | notModelled (mnemonic : String)
  deriving DecidableEq, Repr

/-- The engine at construction (10_state.md R26, 70_reset_and_hazards.md R160): memory zero-filled, Halted, no report;
A, X, Y, P and PC are free values (log entry 3). -/
def State.powerOn : State :=
  { a := Config.powerOnA, x := Config.powerOnX, y := Config.powerOnY, sp := Config.spSlot, pc := Config.powerOnPc,
    p := Config.powerOnP, mem := [], rs := .halted, err := none }

/-- The engine constructed and then reset (10_state.md R25, 70_reset_and_hazards.md R165): PC is the vector read from
zero-filled memory. `reset` from any state is `resetOp` of Machine/HostOps.lean. -/
def State.reset : State :=
  { a := 0x00, x := 0x00, y := 0x00, sp := Config.spSlot, pc := 0x0000, p := 0x00, mem := [], rs := .running,
    err := none }

end Sys2Proof.Machine
end

