-- ==== Sys2Proof/Machine/Ops.lean ====
section
/-! DEFINITION. The named operations over memory and registers: the Memory Bus (20_memory.md R32 to R36), register
writes, the fetch and operand advance, raising a fault, and running a handler. -/

namespace Sys2Proof.Machine

/-- The value taken of the open parameter `TOP_WRAP` (00_scope.md R6, log entry 4). -/
def topWrap : TopWrap := .fault

/-- The canonical form of memory: addresses strictly rising and in range, no entry equal to what an unlisted address
reads as. -/
abbrev Memory.wf (m : Memory) : Prop :=
  m.Pairwise (fun c d => c.1 < d.1) ∧ ∀ c ∈ m, c.1 < Config.memSize ∧ c.2 ≠ Config.zeroFill

/-- The byte at an address: the last one written, else the zero fill (10_state.md R22, 20_memory.md R46). -/
def memRead : Memory → Nat → Byte
  | [], _ => Config.zeroFill
  | (k, b) :: rest, a => if k = a then b else memRead rest a

/-- Overwrite the byte at an address, keeping the canonical form. -/
def memWrite : Memory → Nat → Byte → Memory
  | [], a, v => if v = Config.zeroFill then [] else [(a, v)]
  | (k, b) :: rest, a, v =>
    if a < k then
      if v = Config.zeroFill then (k, b) :: rest else (a, v) :: (k, b) :: rest
    else if a = k then
      if v = Config.zeroFill then rest else (a, v) :: rest
    else (k, b) :: memWrite rest a v

/-- `read(address)`, `MemRead(a, 1)` (20_memory.md R32). -/
def State.readByte (s : State) (a : Addr) : Byte := memRead s.mem a.toNat

/-- `write(address, value)`, `MemWrite(a, 1, v)` (20_memory.md R33). -/
def State.writeByte (a : Addr) (v : Byte) (s : State) : State := { s with mem := memWrite s.mem a.toNat v }

/-- Whether a 16-bit access at `a` is the one at the top of the space that `TOP_WRAP = fault` turns away
(20_memory.md R36). -/
def access16Overruns (tw : TopWrap) (a : Addr) : Bool := tw == .fault && a == 0xFFFF

/-- The little-endian 16-bit value at `a` and `a + 1`, the second address mod 65536 (20_memory.md R34, R37). -/
def State.readWord (a : Addr) (s : State) : Addr := word16 (s.readByte a) (s.readByte (a + 1))

/-- The little-endian 16-bit store at `a` and `a + 1`, the second address mod 65536 (20_memory.md R35, R37). -/
def State.writeWord (a : Addr) (v : Addr) (s : State) : State :=
  (s.writeByte a (lowByte v)).writeByte (a + 1) (highByte v)

/-- `read16(address)`, `MemRead(a, 2)` (20_memory.md R34, R36): `none` is AddressOverrun. -/
def State.read16 (tw : TopWrap) (a : Addr) (s : State) : Option Addr :=
  if access16Overruns tw a then none else some (s.readWord a)

/-- `write16(address, value)`, `MemWrite(a, 2, v)` (20_memory.md R35, R36): `none` is AddressOverrun. -/
def State.write16 (tw : TopWrap) (a : Addr) (v : Addr) (s : State) : Option State :=
  if access16Overruns tw a then none else some (s.writeWord a v)

/-- Bytes written verbatim at ascending addresses (20_memory.md R40), addresses taken mod 65536. -/
def State.writeBytes : List Byte → Addr → State → State
  | [], _, s => s
  | b :: rest, a, s => State.writeBytes rest (a + 1) (s.writeByte a b)

/-- `A <- v`. -/
def State.setA (v : Byte) (s : State) : State := { s with a := v }

/-- `X <- v`. -/
def State.setX (v : Byte) (s : State) : State := { s with x := v }

/-- `P <- v`. -/
def State.setP (v : Byte) (s : State) : State := { s with p := v }

/-- `PC <- (PC + n) mod 65536`: the fetch advance and the operand advance (40_engine.md R81). -/
def State.advancePc (n : Nat) (s : State) : State := { s with pc := s.pc + BitVec.ofNat 16 n }

/-- `RS <- Halted` (45_halt.md R130). -/
def State.halt (s : State) : State := { s with rs := .halted }

/-- `raise F(opcode, a)` (60_exceptions.md R140): the one operation every fault goes through. PC is as the step has
left it. Nothing returns from a fault but `reset` (R147). -/
def State.raise (kind : FaultKind) (opcode : Byte) (a : Addr) (s : State) : State :=
  { s with rs := .halted, err := some ⟨kind, opcode, a⟩ }

/-- Points 2, 6 and 7 of a step (40_engine.md R81) for a handler of the given operand width, from the state whose PC is
the opcode's address: the handler sees PC at the operand. -/
def runHandler (width : Nat) (handler : State → State) (s : State) : Host.Outcome State Fault Refusal :=
  .next ((handler (s.advancePc 1)).advancePc width)

end Sys2Proof.Machine
end

