-- ==== Sys2Proof/Machine/Flags.lean ====
section
/-! DEFINITION. The status flags (10_state.md R15, R16) and their two computations: the uniform Zero/Negative policy
(40_engine.md R86) and the compare (44_compare.md R120). -/

namespace Sys2Proof.Machine

/-- The named bits of `P`, from least to most significant (10_state.md R15). -/
inductive Flag where
  | carry
  | zero
  | interruptDisable
  | decimalMode
  | breakCommand
  | unused
  | overflow
  | negative
  deriving DecidableEq, Repr

/-- The bit column of 10_state.md R15. -/
def Flag.bit : Flag → Nat
  | .carry => 0
  | .zero => 1
  | .interruptDisable => 2
  | .decimalMode => 3
  | .breakCommand => 4
  | .unused => 5
  | .overflow => 6
  | .negative => 7

/-- The mask column of 10_state.md R15. -/
def Flag.mask : Flag → Byte
  | .carry => 0x01
  | .zero => 0x02
  | .interruptDisable => 0x04
  | .decimalMode => 0x08
  | .breakCommand => 0x10
  | .unused => 0x20
  | .overflow => 0x40
  | .negative => 0x80

/-- `p` with one bit replaced. -/
def flagWrite (p : Byte) (f : Flag) (b : Bool) : Byte :=
  (p &&& ~~~f.mask) ||| (if b then f.mask else 0x00)

/-- Read one flag. -/
def State.flag (f : Flag) (s : State) : Bool := s.p.getLsbD f.bit

/-- `P.f <- b`: one bit is written, the other seven are unchanged (00_scope.md R7). -/
def State.setFlag (f : Flag) (b : Bool) (s : State) : State := s.setP (flagWrite s.p f b)

/-- `SetZN(r)` (40_engine.md R86). -/
def State.setZN (r : Byte) (s : State) : State :=
  (s.setFlag .zero (r == 0x00)).setFlag .negative r.msb

/-- The flags of comparing A with `m` (44_compare.md R120): C from the unsigned comparison, Z and N from the 8-bit
difference. -/
def State.compare (m : Byte) (s : State) : State :=
  (s.setFlag .carry (decide (m ≤ s.a))).setZN (s.a - m)

end Sys2Proof.Machine
end

