-- ==== Sys2Proof/Machine/Operands.lean ====
section
/-! DEFINITION. The operand forms and the Addressing-Mode Resolver (30_encoding.md R61 to R72). -/

namespace Sys2Proof.Machine

/-- A mode tag that gives an address, with its assembled operand (30_encoding.md R59, R61). -/
inductive Operand where
  | immediate (nn : Byte)
  | zeroPage (nn : Byte)
  | zeroPageX (nn : Byte)
  | zeroPageY (nn : Byte)
  | absolute (nnnn : Addr)
  | absoluteX (nnnn : Addr)
  | absoluteY (nnnn : Addr)
  | indirectX (nn : Byte)
  | indirectY (nn : Byte)
  deriving DecidableEq, Repr

/-- The operand a tag makes of one operand byte; none under a tag of another width (30_encoding.md R59, R61). -/
def operandOfByte : Mode → Byte → Option Operand
  | .immediate, nn => some (.immediate nn)
  | .zeroPage, nn => some (.zeroPage nn)
  | .zeroPageX, nn => some (.zeroPageX nn)
  | .zeroPageY, nn => some (.zeroPageY nn)
  | .absolute, _ => none
  | .absoluteX, _ => none
  | .absoluteY, _ => none
  | .indirectX, nn => some (.indirectX nn)
  | .indirectY, nn => some (.indirectY nn)
  | .noneAddressing, _ => none

/-- The operand a tag makes of two operand bytes; none under a tag of another width (30_encoding.md R59, R61). -/
def operandOfWord : Mode → Addr → Option Operand
  | .immediate, _ => none
  | .zeroPage, _ => none
  | .zeroPageX, _ => none
  | .zeroPageY, _ => none
  | .absolute, nnnn => some (.absolute nnnn)
  | .absoluteX, nnnn => some (.absoluteX nnnn)
  | .absoluteY, nnnn => some (.absoluteY nnnn)
  | .indirectX, _ => none
  | .indirectY, _ => none
  | .noneAddressing, _ => none

/-- An index added inside the zero page: the sum wraps mod 256 (30_encoding.md R64, R72). -/
def zeroPageIndexed (nn index : Byte) : Addr := zext16 (nn + index)

/-- An index added to a 16-bit base: the sum wraps mod 65536 (30_encoding.md R67, R72). -/
def absoluteIndexed (base : Addr) (index : Byte) : Addr := base + zext16 index

/-- The 16-bit pointer at a zero-page address: two single-byte reads, the second address wrapping inside the zero page
(30_encoding.md R69, R70; 90_conflicts.md C5). -/
def zeroPagePointer (p : Byte) (s : State) : Addr :=
  word16 (s.readByte (zext16 p)) (s.readByte (zext16 (p + 1)))

/-- The effective address, from a state whose PC points at the first operand byte (30_encoding.md R62 to R70). It
reads the pointer of the indirect modes and writes nothing. -/
def Operand.effectiveAddress (s : State) : Operand → Addr
  | .immediate _ => s.pc
  | .zeroPage nn => zext16 nn
  | .zeroPageX nn => zeroPageIndexed nn s.x
  | .zeroPageY nn => zeroPageIndexed nn s.y
  | .absolute nnnn => nnnn
  | .absoluteX nnnn => absoluteIndexed nnnn s.x
  | .absoluteY nnnn => absoluteIndexed nnnn s.y
  | .indirectX nn => zeroPagePointer (nn + s.x) s
  | .indirectY nn => absoluteIndexed (zeroPagePointer nn s) s.y

/-- The byte an instruction works on, `MemRead(EA, 1)` (00_scope.md R8). The immediate byte is the one the step has
already fetched at EA: a model may read it once (40_engine.md R90). -/
def Operand.value (s : State) (op : Operand) : Byte :=
  match op with
  | .immediate nn => nn
  | _ => s.readByte (op.effectiveAddress s)

/-- The operand of an instruction; none under NoneAddressing (30_encoding.md R56, R71). -/
def instrOperand : Instr → Option Operand
  | .brk => none
  | .ldaImmediate nn => some (.immediate nn)
  | .ldaZeroPage nn => some (.zeroPage nn)
  | .ldaZeroPageX nn => some (.zeroPageX nn)
  | .ldaAbsolute nnnn => some (.absolute nnnn)
  | .ldaAbsoluteX nnnn => some (.absoluteX nnnn)
  | .ldaAbsoluteY nnnn => some (.absoluteY nnnn)
  | .ldaIndirectX nn => some (.indirectX nn)
  | .ldaIndirectY nn => some (.indirectY nn)
  | .tax => none
  | .inx => none
  | .cmpImmediate nn => some (.immediate nn)
  | .cmpZeroPage nn => some (.zeroPage nn)
  | .cmpZeroPageX nn => some (.zeroPageX nn)
  | .cmpAbsolute nnnn => some (.absolute nnnn)
  | .cmpAbsoluteX nnnn => some (.absoluteX nnnn)
  | .cmpAbsoluteY nnnn => some (.absoluteY nnnn)
  | .cmpIndirectX nn => some (.indirectX nn)
  | .cmpIndirectY nn => some (.indirectY nn)

/-- The operand of a mode, fetched at PC, for the opcode byte `opcode` fetched from `a` (30_encoding.md R59, R71). A
16-bit operand at 0xFFFF is the overrun of 20_memory.md R36, which the step's own check raises first. -/
def fetchOperand (tw : TopWrap) (opcode : Byte) (a : Addr) (s : State) : Mode → Except FaultReport Operand
  | .immediate => .ok (.immediate (s.readByte s.pc))
  | .zeroPage => .ok (.zeroPage (s.readByte s.pc))
  | .zeroPageX => .ok (.zeroPageX (s.readByte s.pc))
  | .zeroPageY => .ok (.zeroPageY (s.readByte s.pc))
  | .absolute => fetch16 .absolute
  | .absoluteX => fetch16 .absoluteX
  | .absoluteY => fetch16 .absoluteY
  | .indirectX => .ok (.indirectX (s.readByte s.pc))
  | .indirectY => .ok (.indirectY (s.readByte s.pc))
  | .noneAddressing => .error ⟨.invalidAddressingMode, opcode, a⟩
where
  fetch16 (form : Addr → Operand) : Except FaultReport Operand :=
    match s.read16 tw s.pc with
    | some nnnn => .ok (form nnnn)
    | none => .error ⟨.addressOverrun, opcode, a⟩

/-- `Resolve(mode)` (00_scope.md R8, 30_encoding.md R61 to R71), for the opcode byte `opcode` fetched from `a`, with PC
at the first operand byte. -/
def resolve (tw : TopWrap) (opcode : Byte) (a : Addr) (mode : Mode) (s : State) : Except FaultReport Addr :=
  match fetchOperand tw opcode a s mode with
  | .ok op => .ok (op.effectiveAddress s)
  | .error f => .error f

end Sys2Proof.Machine
end

