-- ==== Sys2Proof/Machine/Compare.lean ====
section
/-! DEFINITION. The compare family (44_compare.md R120 to R128). -/

namespace Sys2Proof.Machine

/-- The compare handler (44_compare.md R120): only C, Z and N are written. -/
def compareHandler (op : Operand) (s : State) : State := s.compare (op.value s)

/-- `CMP #$nn` (R121). -/
def execCmpImmediate (nn : Byte) (s : State) : Host.Outcome State Fault Refusal :=
  runHandler 1 (compareHandler (.immediate nn)) s

/-- `CMP $nn` (R122). -/
def execCmpZeroPage (nn : Byte) (s : State) : Host.Outcome State Fault Refusal :=
  runHandler 1 (compareHandler (.zeroPage nn)) s

/-- `CMP $nn,X` (R123). -/
def execCmpZeroPageX (nn : Byte) (s : State) : Host.Outcome State Fault Refusal :=
  runHandler 1 (compareHandler (.zeroPageX nn)) s

/-- `CMP $nnnn` (R124). -/
def execCmpAbsolute (nnnn : Addr) (s : State) : Host.Outcome State Fault Refusal :=
  runHandler 2 (compareHandler (.absolute nnnn)) s

/-- `CMP $nnnn,X` (R125). -/
def execCmpAbsoluteX (nnnn : Addr) (s : State) : Host.Outcome State Fault Refusal :=
  runHandler 2 (compareHandler (.absoluteX nnnn)) s

/-- `CMP $nnnn,Y` (R126). -/
def execCmpAbsoluteY (nnnn : Addr) (s : State) : Host.Outcome State Fault Refusal :=
  runHandler 2 (compareHandler (.absoluteY nnnn)) s

/-- `CMP ($nn,X)` (R127). -/
def execCmpIndirectX (nn : Byte) (s : State) : Host.Outcome State Fault Refusal :=
  runHandler 1 (compareHandler (.indirectX nn)) s

/-- `CMP ($nn),Y` (R128). -/
def execCmpIndirectY (nn : Byte) (s : State) : Host.Outcome State Fault Refusal :=
  runHandler 1 (compareHandler (.indirectY nn)) s

end Sys2Proof.Machine
end

