-- ==== Sys2Proof/Machine/Halt.lean ====
section
/-! DEFINITION. The halt family (45_halt.md R130). -/

namespace Sys2Proof.Machine

/-- `BRK` (R130): the fetch advance, then `RS <- Halted`; no flag, no stack, no vector.

At `HALT_OPCODE` the step halts by itself, by the byte (40_engine.md R81 point 5). DESIGN CHOICE (log entry 12): under
parameters that place BRK's row at another byte, it halts there too. -/
def execBrk (s : State) : Host.Outcome State Fault Refusal :=
  .next (s.advancePc 1).halt

end Sys2Proof.Machine
end

