-- ==== Sys2Proof/Machine/Increment.lean ====
section
/-! DEFINITION. The increment family (43_increment.md R115). -/

namespace Sys2Proof.Machine

/-- `X <- (X + 1) mod 256; SetZN(X)`, on the new X (43_increment.md R115). -/
def incrementHandler (s : State) : State := (s.setX (s.x + 1)).setZN (s.x + 1)

/-- `INX` (R115). -/
def execInx (s : State) : Host.Outcome State Fault Refusal :=
  runHandler 0 incrementHandler s

end Sys2Proof.Machine
end

