-- ==== Sys2Proof/Machine/Load.lean ====
section
/-! DEFINITION. The load family (41_load.md R100 to R108). -/

namespace Sys2Proof.Machine

/-- The load handler (41_load.md R100): A takes the operand byte, Z and N follow it. -/
def loadHandler (op : Operand) (s : State) : State :=
  let v := op.value s
  (s.setA v).setZN v

/-- `LDA #$nn` (R101). -/
def execLdaImmediate (nn : Byte) (s : State) : Host.Outcome State Fault Refusal :=
  runHandler 1 (loadHandler (.immediate nn)) s

/-- `LDA $nn` (R102). -/
def execLdaZeroPage (nn : Byte) (s : State) : Host.Outcome State Fault Refusal :=
  runHandler 1 (loadHandler (.zeroPage nn)) s

/-- `LDA $nn,X` (R103). -/
def execLdaZeroPageX (nn : Byte) (s : State) : Host.Outcome State Fault Refusal :=
  runHandler 1 (loadHandler (.zeroPageX nn)) s

/-- `LDA $nnnn` (R104). -/
def execLdaAbsolute (nnnn : Addr) (s : State) : Host.Outcome State Fault Refusal :=
  runHandler 2 (loadHandler (.absolute nnnn)) s

/-- `LDA $nnnn,X` (R105). -/
def execLdaAbsoluteX (nnnn : Addr) (s : State) : Host.Outcome State Fault Refusal :=
  runHandler 2 (loadHandler (.absoluteX nnnn)) s

/-- `LDA $nnnn,Y` (R106). -/
def execLdaAbsoluteY (nnnn : Addr) (s : State) : Host.Outcome State Fault Refusal :=
  runHandler 2 (loadHandler (.absoluteY nnnn)) s

/-- `LDA ($nn,X)` (R107). -/
def execLdaIndirectX (nn : Byte) (s : State) : Host.Outcome State Fault Refusal :=
  runHandler 1 (loadHandler (.indirectX nn)) s

/-- `LDA ($nn),Y` (R108). -/
def execLdaIndirectY (nn : Byte) (s : State) : Host.Outcome State Fault Refusal :=
  runHandler 1 (loadHandler (.indirectY nn)) s

end Sys2Proof.Machine
end

