-- ==== Sys2Proof/Machine/Transfer.lean ====
section
/-! DEFINITION. The transfer family (42_transfer.md R110). -/

namespace Sys2Proof.Machine

/-- `X <- A; SetZN(X)`, on the new X (42_transfer.md R110). -/
def transferHandler (s : State) : State := (s.setX s.a).setZN s.a

/-- `TAX` (R110). -/
def execTax (s : State) : Host.Outcome State Fault Refusal :=
  runHandler 0 transferHandler s

end Sys2Proof.Machine
end

