-- ==== Sys2Proof/Machine/Dispatch.lean ====
section
/-! DEFINITION. The meaning of every instruction, one arm per row of spec/opcode_table.json. -/

namespace Sys2Proof.Machine

def exec (i : Instr) (s : State) : Host.Outcome State Fault Refusal :=
  match i with
  | .brk => Sys2Proof.Machine.execBrk s
  | .ldaImmediate nn => Sys2Proof.Machine.execLdaImmediate nn s
  | .ldaZeroPage nn => Sys2Proof.Machine.execLdaZeroPage nn s
  | .ldaZeroPageX nn => Sys2Proof.Machine.execLdaZeroPageX nn s
  | .ldaAbsolute nnnn => Sys2Proof.Machine.execLdaAbsolute nnnn s
  | .ldaAbsoluteX nnnn => Sys2Proof.Machine.execLdaAbsoluteX nnnn s
  | .ldaAbsoluteY nnnn => Sys2Proof.Machine.execLdaAbsoluteY nnnn s
  | .ldaIndirectX nn => Sys2Proof.Machine.execLdaIndirectX nn s
  | .ldaIndirectY nn => Sys2Proof.Machine.execLdaIndirectY nn s
  | .tax => Sys2Proof.Machine.execTax s
  | .inx => Sys2Proof.Machine.execInx s
  | .cmpImmediate nn => Sys2Proof.Machine.execCmpImmediate nn s
  | .cmpZeroPage nn => Sys2Proof.Machine.execCmpZeroPage nn s
  | .cmpZeroPageX nn => Sys2Proof.Machine.execCmpZeroPageX nn s
  | .cmpAbsolute nnnn => Sys2Proof.Machine.execCmpAbsolute nnnn s
  | .cmpAbsoluteX nnnn => Sys2Proof.Machine.execCmpAbsoluteX nnnn s
  | .cmpAbsoluteY nnnn => Sys2Proof.Machine.execCmpAbsoluteY nnnn s
  | .cmpIndirectX nn => Sys2Proof.Machine.execCmpIndirectX nn s
  | .cmpIndirectY nn => Sys2Proof.Machine.execCmpIndirectY nn s

end Sys2Proof.Machine
end

