-- ==== Sys2Proof/Machine/Handlers.lean ====
section
/-! DEFINITION. Handlers as 40_engine.md R85 and R87 allow them: functions of the registers, the resolved operand and
memory, whose effect cannot name PC, SP, the run state or the report, and which leave Z and N to `SetZN`. The handlers
of the spec's mnemonics are `handlerOf`. -/

namespace Sys2Proof.Machine

/-- What a handler may read beside its operand: the registers, the flags and memory. SP holds no value and is not among
them (10_state.md R13); PC is the address after the opcode byte (10_state.md R14). -/
structure View where
  pc : Addr
  a : Byte
  x : Byte
  y : Byte
  p : Byte
  byte : Addr → Byte

/-- What a handler sees of a state. -/
def State.view (s : State) : View := { pc := s.pc, a := s.a, x := s.x, y := s.y, p := s.p, byte := s.readByte }

/-- The flags a handler may write itself: all but Z and N (40_engine.md R94). -/
inductive OwnFlag where
  | carry
  | interruptDisable
  | decimalMode
  | breakCommand
  | unused
  | overflow
  deriving DecidableEq, Repr

/-- The named bit of P it is. -/
def OwnFlag.flag : OwnFlag → Flag
  | .carry => .carry
  | .interruptDisable => .interruptDisable
  | .decimalMode => .decimalMode
  | .breakCommand => .breakCommand
  | .unused => .unused
  | .overflow => .overflow

/-- What a handler produces (40_engine.md R85): the registers, bytes to store and instruction-specific flags, each in
order, and the result byte of the uniform policy. -/
structure Effect where
  a : Byte
  x : Byte
  y : Byte
  stores : List (Addr × Byte)
  flags : List (OwnFlag × Bool)
  result : Byte

/-- The effect that changes nothing. -/
def View.keep (v : View) : Effect := { a := v.a, x := v.x, y := v.y, stores := [], flags := [], result := 0x00 }

/-- Stores in order. -/
def State.storeAll : List (Addr × Byte) → State → State
  | [], s => s
  | (q, v) :: rest, s => State.storeAll rest (s.writeByte q v)

/-- Flag writes in order. -/
def State.setOwnFlags : List (OwnFlag × Bool) → State → State
  | [], s => s
  | (f, b) :: rest, s => State.setOwnFlags rest (s.setFlag f.flag b)

/-- The registers, the stores and the flags of an effect; and `SetZN` of its result if the instruction is documented as
affecting Z and N, which are else left alone (40_engine.md R86, R87). -/
def State.applyEffect (affectsZN : Bool) (e : Effect) (s : State) : State :=
  let t := State.setOwnFlags e.flags (State.storeAll e.stores { s with a := e.a, x := e.x, y := e.y })
  if affectsZN then t.setZN e.result else t

/-- The body of a handler: one that needs no address, or one that works on the effective address and the byte there. -/
inductive Body where
  | implied (effect : View → Effect)
  | addressed (effect : View → Addr → Byte → Effect)

/-- The handler of a mnemonic, with whether the instruction is documented as affecting Z and N (40_engine.md R87). -/
structure Behaviour where
  affectsZN : Bool
  body : Body

/-- What a handler does to a state whose PC is at the operand, with its operand assembled; none where a handler needs an
address and there is no operand. -/
def Behaviour.onOperand (b : Behaviour) (op : Option Operand) : Option (State → State) :=
  match b.body, op with
  | .implied effect, _ => some fun s => s.applyEffect b.affectsZN (effect s.view)
  | .addressed effect, some op =>
    some fun s => s.applyEffect b.affectsZN (effect s.view (op.effectiveAddress s) (op.value s))
  | .addressed _, none => none

/-- The handlers of the spec's mnemonics (41_load.md R100, 42_transfer.md R110, 43_increment.md R115, 44_compare.md
R120). BRK has none: its meaning is the step's own halt (45_halt.md R130). -/
def handlerOf : Mnemonic → Option Behaviour
  | .brk => none
  | .lda => some ⟨true, .addressed fun v _ m => { v.keep with a := m, result := m }⟩
  | .tax => some ⟨true, .implied fun v => { v.keep with x := v.a, result := v.a }⟩
  | .inx => some ⟨true, .implied fun v => { v.keep with x := v.x + 1, result := v.x + 1 }⟩
  | .cmp => some ⟨true, .addressed fun v _ m =>
      { v.keep with flags := [(.carry, decide (m ≤ v.a))], result := v.a - m }⟩

/-- `run` is the meaning of an instruction with this operand and width, from the state whose PC is the opcode's address:
the handler's between the two advances of PC (40_engine.md R81 points 2, 6 and 7), or the halt's where there is no
handler. A handler that needs an address under NoneAddressing is no meaning (30_encoding.md R71). -/
def RunsAs (handler : Option Behaviour) (width : Nat) (op : Option Operand)
    (run : State → Host.Outcome State Fault Refusal) : Prop :=
  match handler with
  | none => ∀ s, run s = .next (s.advancePc 1).halt
  | some b => ∃ f, b.onOperand op = some f ∧ ∀ s, run s = runHandler width f s

end Sys2Proof.Machine
end

