-- ==== Sys2Proof/Machine/Params.lean ====
section
/-! DEFINITION. The open parameters of the step relation (00_scope.md R6, 10_state.md R23), which carry with them the
contract a table is held to (40_engine.md R94). -/

namespace Sys2Proof.Machine

/-- The handler of a descriptor makes instructions whose operand is the one its tag and its operand bytes give
(30_encoding.md R59, R61; 40_engine.md R85). -/
def operandsAgree {M I : Type} (operand : I → Option Operand) (d : DescriptorOf M I) : Prop :=
  match d.handler with
  | .implied i => operand i = none
  | .op8 make => ∀ nn, operand (make nn) = operandOfByte d.mode nn
  | .op16 make => ∀ nnnn, operand (make nnnn) = operandOfWord d.mode nnnn

/-- What every descriptor is held to (40_engine.md R94): the width its tag implies (30_encoding.md R61), the operand its
tag gives, and meanings that are its mnemonic's handler. -/
def DescriptorContract {M I : Type} (operand : I → Option Operand) (handler : M → Option Behaviour)
    (exec : I → State → Host.Outcome State Fault Refusal) (d : DescriptorOf M I) : Prop :=
  d.widthAgrees = true ∧ operandsAgree operand d ∧
    ∀ i, d.handler.makes i → RunsAs (handler d.mnemonic) d.width (operand i) (exec i)

/-- The open parameters: `TOP_WRAP`, `HALT_OPCODE`, and `ISET` as a table of descriptors over any mnemonics `M` and
instructions `I`, with what their handlers do. They are no part of State, and no step changes them. Parameters that
break the contract of 40_engine.md R94 cannot be built. -/
structure Params (M I : Type) where
  /-- `TOP_WRAP`. -/
  topWrap : TopWrap
  /-- `HALT_OPCODE`. -/
  haltOpcode : Byte
  /-- `ISET`. -/
  table : TableOf M I
  /-- The assembled operand of an instruction. -/
  operand : I → Option Operand
  /-- The handler of a mnemonic; the halt has none. -/
  handler : M → Option Behaviour
  /-- The meaning of an instruction, from the state whose PC is the opcode's address. -/
  exec : I → State → Host.Outcome State Fault Refusal
  /-- One descriptor per opcode byte. -/
  oneDescriptor : (table.map Prod.fst).Nodup
  /-- One mnemonic is the halt's: no handler changes the run state (40_engine.md R85). -/
  oneHalt : ∀ m m', handler m = none → handler m' = none → m = m'
  /-- The contract of each descriptor. -/
  contract : ∀ r ∈ table, DescriptorContract operand handler exec r.2

/-- The descriptors of the spec's rows meet the contract. -/
theorem isetRows_contract :
    ∀ q ∈ isetRows, DescriptorContract instrOperand handlerOf Sys2Proof.Machine.exec q.2 := by
  intro q hq
  simp only [isetRows, isetImplied, isetLoad, isetCompare, List.cons_append, List.nil_append, List.mem_cons,
    List.not_mem_nil, or_false] at hq
  rcases hq with rfl | rfl | rfl | rfl | rfl | rfl | rfl | rfl | rfl | rfl | rfl | rfl | rfl | rfl | rfl | rfl | rfl |
    rfl | rfl
  · exact ⟨rfl, rfl, fun i hi => by cases hi; exact fun _ => rfl⟩
  · exact ⟨rfl, rfl, fun i hi => by cases hi; exact ⟨_, rfl, fun _ => rfl⟩⟩
  · exact ⟨rfl, rfl, fun i hi => by cases hi; exact ⟨_, rfl, fun _ => rfl⟩⟩
  all_goals exact ⟨rfl, fun _ => rfl, fun i hi => by obtain ⟨_, rfl⟩ := hi; exact ⟨_, rfl, fun _ => rfl⟩⟩

/-- The parameters whose table holds descriptors of the spec's rows, under any opcode bytes, with any halt opcode. -/
def Params.over (tw : TopWrap) (haltOpcode : Byte) (table : TableOf Mnemonic Instr)
    (oneDescriptor : (table.map Prod.fst).Nodup) (rows : ∀ r ∈ table, ∃ q ∈ isetRows, q.2 = r.2) :
    Params Mnemonic Instr :=
  { topWrap := tw, haltOpcode := haltOpcode, table := table, operand := instrOperand, handler := handlerOf,
    exec := Sys2Proof.Machine.exec, oneDescriptor := oneDescriptor,
    oneHalt := fun m m' h h' => by cases m <;> cases m' <;> simp_all [handlerOf]
    contract := fun r hr => by obtain ⟨q, hq, he⟩ := rows r hr; exact he ▸ isetRows_contract q hq }

/-- The values the spec takes of `ISET` and `HALT_OPCODE` (00_scope.md R6, log entry 5), under either `TOP_WRAP`. -/
def Params.spec (tw : TopWrap) : Params Mnemonic Instr :=
  Params.over tw Config.haltOpcode isetRows (by decide) fun r hr => ⟨r, hr, rfl⟩

end Sys2Proof.Machine
end

