-- ==== Sys2Proof/Machine/Engine.lean ====
section
/-! DEFINITION. One iteration of the run loop over the open parameters (40_engine.md R81, R83), and `run`. -/

namespace Sys2Proof.Machine

/-- The bytes from PC on, as many as the longest instruction has (30_encoding.md R55), addresses mod 65536. The
decoder ignores those after the instruction, and a read has no side effect (20_memory.md R44). -/
def State.fetchWindow (s : State) : List Byte :=
  [s.readByte s.pc, s.readByte (s.pc + 1), s.readByte (s.pc + 2)]

/-- Point 2 of 40_engine.md R81: the fetch advance would take PC past 0xFFFF. -/
def fetchOverruns (tw : TopWrap) (a : Addr) : Bool := tw == .fault && a == 0xFFFF

/-- Point 4 of 40_engine.md R81: the successor address `a + 1 + width` is above 0xFFFF. -/
def successorOverruns (tw : TopWrap) (a : Addr) (width : Nat) : Bool :=
  tw == .fault && decide (a.toNat + 1 + width > 0xFFFF)

/-- `Step()` (40_engine.md R81) under any values of the open parameters; a Halted engine does nothing (R83). -/
def paramStep {M I : Type} (pr : Params M I) (s : State) : Host.Outcome State Fault Refusal :=
  match s.rs with
  | .halted => .next s
  | .running =>
    let opcode := s.readByte s.pc
    if fetchOverruns pr.topWrap s.pc then .next (s.raise .addressOverrun opcode s.pc)
    else
      match decodeWith pr.table s.fetchWindow with
      | .error _ => .next ((s.advancePc 1).raise .unknownOpcode opcode s.pc)
      | .ok (i, _) =>
        if successorOverruns pr.topWrap s.pc (operandWidth pr.table opcode) then
          .next ((s.advancePc 1).raise .addressOverrun opcode s.pc)
        else if opcode = pr.haltOpcode then .next (s.advancePc 1).halt
        else pr.exec i s

/-- `Step()` under the spec's table and halt opcode and a value of `TOP_WRAP`. -/
def engineStep (tw : TopWrap) (s : State) : Host.Outcome State Fault Refusal := paramStep (Params.spec tw) s

/-- The state after a step under any parameters. Every step has one (40_engine.md R89), so the other two arms are never
taken. -/
def paramState {M I : Type} (pr : Params M I) (s : State) : State :=
  match paramStep pr s with
  | .next t => t
  | .fault _ => s
  | .refused _ => s

/-- The state after a step. Every step has one (40_engine.md R89). -/
def stepState (tw : TopWrap) (s : State) : State := paramState (Params.spec tw) s

/-- The outcome of `run` and `step` (40_engine.md R84). -/
inductive RunOutcome where
  /-- `Continue`: an instruction other than halt completed. -/
  | continues
  /-- `Halt`: the halt opcode was executed. -/
  | halt
  /-- `Fault(f)`: the step raised the fault. -/
  | fault (f : FaultReport)
  /-- `AlreadyHalted`: the engine was Halted on entry. -/
  | alreadyHalted
  deriving DecidableEq, Repr

/-- The outcome of the step from `s` to `t` (40_engine.md R84): a fault is told from a clean halt by the report. -/
def stepOutcome (s t : State) : RunOutcome :=
  match s.rs, t.rs, t.err with
  | .halted, _, _ => .alreadyHalted
  | .running, .running, _ => .continues
  | .running, .halted, none => .halt
  | .running, .halted, some f => .fault f

/-- `step()` as the host calls it (40_engine.md R82 to R84), under any parameters. -/
def paramHostStep {M I : Type} (pr : Params M I) (s : State) : RunOutcome × State :=
  let t := paramState pr s
  (stepOutcome s t, t)

/-- `step()` under the spec's table and halt opcode. -/
def hostStep (tw : TopWrap) (s : State) : RunOutcome × State := paramHostStep (Params.spec tw) s

/-- `run()` (40_engine.md R82) under any parameters, if it returns within `n` steps; `none` says it has not returned
yet, which is never a final state (93_implementation_defined.md U15). -/
def paramRun {M I : Type} (pr : Params M I) : Nat → State → Option (RunOutcome × State)
  | 0, _ => none
  | n + 1, s =>
    match paramHostStep pr s with
    | (.continues, t) => paramRun pr n t
    | (.halt, t) => some (.halt, t)
    | (.fault f, t) => some (.fault f, t)
    | (.alreadyHalted, t) => some (.alreadyHalted, t)

/-- `run()` within `n` steps under the spec's table and halt opcode. -/
def runFor (tw : TopWrap) (n : Nat) (s : State) : Option (RunOutcome × State) := paramRun (Params.spec tw) n s

/-- `run()` under the spec's values of all parameters: every run ends within 65 536 steps (40_engine.md R92). -/
def run (s : State) : Option (RunOutcome × State) := runFor topWrap 65536 s

end Sys2Proof.Machine
end

