-- ==== Sys2Proof/Machine/Step.lean ====
section
/-! DEFINITION. The step of the machine, and the state whose next step runs a given instruction. -/

namespace Sys2Proof.Machine

/-- One step (40_engine.md R81) under the spec's value of `TOP_WRAP`. -/
def step (s : State) : Host.Outcome State Fault Refusal := engineStep topWrap s

/-- `s` with the instruction whose bits are `w` stored from PC on, and Running, which the fetch needs (log entry 7). -/
def State.withFetchWord (s : State) (nbits w : Nat) : State :=
  { State.writeBytes (tableBytes nbits w) s.pc s with rs := .running }

end Sys2Proof.Machine
end

