-- ==== Sys2Proof/Machine/HostOps.lean ====
section
/-! DEFINITION. What the host can do to the engine while no step is in progress (70_reset_and_hazards.md R166):
`load`, `reset`, inspection and direct writes. `construct` is `State.powerOn`; `step` and `run` are `hostStep` and
`run` of Machine/Engine.lean. An error leaves the engine as it was. -/

namespace Sys2Proof.Machine

/-- `reset()` (70_reset_and_hazards.md R162, 10_state.md R25), from any state. -/
def resetOp (s : State) : State :=
  { s with a := 0x00, x := 0x00, y := 0x00, p := 0x00, pc := s.readWord Config.resetVector, rs := .running,
           err := none }

/-- `load(program)` (20_memory.md R40): the length check, then the image, then the reset vector. -/
def load (image : List Byte) (s : State) : Except Fault State :=
  if image.length > Config.maxImage then .error (.loadOverflow image.length)
  else .ok ((State.writeBytes image Config.loadBase s).writeWord Config.resetVector Config.loadBase)

/-- The registers by name (10_state.md R10 to R15). -/
inductive RegName where
  | a
  | x
  | y
  | sp
  | pc
  | p
  deriving DecidableEq, Repr

/-- A value the inspection surface shows. -/
inductive Inspected where
  | byte (v : Byte)
  | addr (v : Addr)
  deriving DecidableEq, Repr

/-- The inspection surface (10_state.md R27): A, X, Y, P and PC. SP is not on it, and a read of it is a fault
(R13). -/
def inspect (s : State) : RegName → Except Fault Inspected
  | .a => .ok (.byte s.a)
  | .x => .ok (.byte s.x)
  | .y => .ok (.byte s.y)
  | .sp => .error .stackPointerRead
  | .pc => .ok (.addr s.pc)
  | .p => .ok (.byte s.p)

/-- Inspection of a memory byte (10_state.md R27). -/
def inspectMemory (a : Addr) (s : State) : Byte := s.readByte a

/-- A host-issued `read16` (20_memory.md R34, R36). -/
def hostRead16 (tw : TopWrap) (a : Addr) (s : State) : Except Fault Addr :=
  match s.read16 tw a with
  | some v => .ok v
  | none => .error .addressOverrun

/-- The direct writes of the host (10_state.md R28). -/
inductive HostWrite where
  | a (v : Byte)
  | x (v : Byte)
  | y (v : Byte)
  | p (v : Byte)
  | pc (v : Addr)
  | byte (addr : Addr) (v : Byte)
  | word (addr : Addr) (v : Addr)
  deriving DecidableEq, Repr

/-- A host write changes exactly the state it names (10_state.md R28); `write16` at 0xFFFF is 20_memory.md R36. -/
def hostWrite (tw : TopWrap) (w : HostWrite) (s : State) : Except Fault State :=
  match w with
  | .a v => .ok { s with a := v }
  | .x v => .ok { s with x := v }
  | .y v => .ok { s with y := v }
  | .p v => .ok { s with p := v }
  | .pc v => .ok { s with pc := v }
  | .byte addr v => .ok (s.writeByte addr v)
  | .word addr v =>
    match s.write16 tw addr v with
    | some t => .ok t
    | none => .error .addressOverrun

end Sys2Proof.Machine
end

