-- ==== Sys2Proof/Machine/Reference.lean ====
section
/-! DEFINITION. The run loop's body as 40_engine.md R81 words it: descriptor look-up, and handlers that call
`Resolve(d.mode)` themselves and read memory through it. `paramStep`, which decodes first and then executes, is stated
equal to it, outcome and state. -/

namespace Sys2Proof.Machine

/-- `Operand(mode)` (00_scope.md R8): `MemRead(Resolve(mode), 1)`. -/
def referenceOperand (tw : TopWrap) (opcode : Byte) (a : Addr) (mode : Mode) (s : State) : Except FaultReport Byte :=
  match resolve tw opcode a mode s with
  | .ok ea => .ok (s.readByte ea)
  | .error f => .error f

/-- `d.handler(d.mode)` (40_engine.md R81 point 6, R85), with PC at the operand: a handler that needs an address calls
the resolver with the descriptor's tag. -/
def referenceHandler (tw : TopWrap) (opcode : Byte) (a : Addr) (mode : Mode) (b : Behaviour) (s : State) :
    Except FaultReport State :=
  match b.body with
  | .implied effect => .ok (s.applyEffect b.affectsZN (effect s.view))
  | .addressed effect =>
    match resolve tw opcode a mode s with
    | .ok ea => .ok (s.applyEffect b.affectsZN (effect s.view ea (s.readByte ea)))
    | .error f => .error f

/-- `raise F(opcode, a)` as a step returns it (60_exceptions.md R140): the outcome and the state. -/
def referenceRaise (f : FaultReport) (s : State) : RunOutcome × State :=
  (.fault f, s.raise f.kind f.opcode f.addr)

/-- `Step()` in the words of 40_engine.md R81 and R83, over the three open parameters, `ISET` as a table with the
handlers of its mnemonics: what it returns, and the state after it. The table is any, so a malformed one reaches
60_exceptions.md R142. DESIGN CHOICE (log entry 12): a mnemonic without a handler, which is BRK, halts at any byte. -/
def referenceStep {M I : Type} (tw : TopWrap) (haltOpcode : Byte) (table : TableOf M I)
    (handler : M → Option Behaviour) (s : State) : RunOutcome × State :=
  if s.rs = .halted then (.alreadyHalted, s)
  else
    let a := s.pc
    let opcode := s.readByte a
    if tw = .fault ∧ a = 0xFFFF then referenceRaise ⟨.addressOverrun, opcode, a⟩ s
    else
      let s1 := { s with pc := a + 1 }
      match lookup table opcode with
      | none => referenceRaise ⟨.unknownOpcode, opcode, a⟩ s1
      | some d =>
        if tw = .fault ∧ a.toNat + 1 + d.width > 0xFFFF then referenceRaise ⟨.addressOverrun, opcode, a⟩ s1
        else if opcode = haltOpcode then (.halt, { s1 with rs := .halted })
        else
          match handler d.mnemonic with
          | none => (.halt, { s1 with rs := .halted })
          | some b =>
            match referenceHandler tw opcode a d.mode b s1 with
            | .error f => referenceRaise f s1
            | .ok s2 => (.continues, { s2 with pc := s2.pc + BitVec.ofNat 16 d.width })

end Sys2Proof.Machine
end

