-- ==== Sys2Proof/Machine/Trace.lean ====
section
/-! DEFINITION. The memory accesses of one step, in order (40_engine.md R90, 20_memory.md R43). All are reads. -/

namespace Sys2Proof.Machine

/-- The addresses of the operand bytes of an instruction whose opcode byte is at `a` (R90 point 2). -/
def operandAddresses (a : Addr) (width : Nat) : List Addr :=
  (List.range width).map (fun k => a + 1 + BitVec.ofNat 16 k)

/-- The pointer bytes an indirect operand reads, low then high (R90 point 3). -/
def pointerAddresses (s : State) : Operand → List Addr
  | .immediate _ => []
  | .zeroPage _ => []
  | .zeroPageX _ => []
  | .zeroPageY _ => []
  | .absolute _ => []
  | .absoluteX _ => []
  | .absoluteY _ => []
  | .indirectX nn => [zext16 (nn + s.x), zext16 (nn + s.x + 1)]
  | .indirectY nn => [zext16 nn, zext16 (nn + 1)]

/-- The data access at EA (R90 point 4). The immediate byte is the operand byte of point 2, read once. -/
def dataAddresses (s : State) (op : Operand) : List Addr :=
  match op with
  | .immediate _ => []
  | _ => [op.effectiveAddress s]

/-- The accesses of an instruction after its opcode byte. -/
def instrAccesses (i : Instr) (s : State) : List Addr :=
  operandAddresses s.pc i.width ++
    match instrOperand i with
    | none => []
    | some op => pointerAddresses s op ++ dataAddresses s op

/-- The accesses of one step. A Halted engine makes none (40_engine.md R83); a faulting step has read the opcode byte
only. -/
def stepAccesses (tw : TopWrap) (s : State) : List Addr :=
  match s.rs with
  | .halted => []
  | .running =>
    s.pc ::
      (if fetchOverruns tw s.pc then []
       else
        match decode s.fetchWindow with
        | .error _ => []
        | .ok (i, _) => if successorOverruns tw s.pc i.width then [] else instrAccesses i s)

end Sys2Proof.Machine
end

