-- ==== Sys2Proof/Safety.lean ====
section
/-! DEFINITION. What claims about a run are stated in: final and faulted states (40_engine.md R93), and the invariant
every step keeps. -/

namespace Sys2Proof.Machine

/-- The only final state of a program: halted with no report (40_engine.md R93). -/
def State.final (s : State) : Prop := s.rs = .halted ∧ s.err = none

/-- A faulted state, never a final one (60_exceptions.md R140). -/
def State.faulted (s : State) : Prop := s.rs = .halted ∧ ∃ f, s.err = some f

/-- What a report says is so: the opcode byte is the one at the address (60_exceptions.md R140), an unknown opcode has
no descriptor (R141), an overrun leaves no room below the top (R143), and InvalidAddressingMode does not occur
(R142). -/
def FaultReport.truthful (f : FaultReport) (s : State) : Prop :=
  f.opcode = s.readByte f.addr ∧
    match f.kind with
    | .unknownOpcode => iset f.opcode = none
    | .addressOverrun => f.addr = 0xFFFF ∨ ∃ d, iset f.opcode = some d ∧ f.addr.toNat + 1 + d.width > 0xFFFF
    | .invalidAddressingMode => False

/-- A report stands only in a Halted engine (10_state.md R21, 60_exceptions.md R140). -/
def State.reportsOnlyHalted (s : State) : Prop := ∀ f, s.err = some f → s.rs = .halted

/-- The invariant of the engine: memory is in its canonical form, and a report stands only in a Halted engine and is
truthful. -/
def State.Inv (s : State) : Prop :=
  s.mem.wf ∧ ∀ f, s.err = some f → s.rs = .halted ∧ f.truthful s

/-- The 19 opcode bytes that have a descriptor (95_test_vectors.md X4), written out. -/
def tableOpcodes : List Byte :=
  [0x00, 0xA1, 0xA5, 0xA9, 0xAA, 0xAD, 0xB1, 0xB5, 0xB9, 0xBD, 0xC1, 0xC5, 0xC9, 0xCD, 0xD1, 0xD5, 0xD9, 0xDD, 0xE8]

/-- P after `SetZN(r)` (40_engine.md R86), packed: bit 1 says `r = 0`, bit 7 is bit 7 of `r`, six bits are kept. -/
def statusAfterResult (p r : Byte) : Byte :=
  (p &&& 0x7D) ||| (if r = 0x00 then 0x02 else 0x00) ||| (r &&& 0x80)

/-- P after comparing `acc` with `m` (44_compare.md R120), packed: bit 0 says `acc >= m` unsigned, bit 1 `acc = m`,
bit 7 is bit 7 of the difference, five bits are kept. -/
def statusAfterCompare (p acc m : Byte) : Byte :=
  (p &&& 0x7C) ||| (if m.toNat ≤ acc.toNat then 0x01 else 0x00) ||| (if acc = m then 0x02 else 0x00) |||
    ((acc - m) &&& 0x80)

/-- `bytes` is the encoding of `i`, and `i` runs from every state: A takes `value`, Z and N follow it, PC goes past the
bytes, and nothing else changes. -/
def LoadsByte (i : Instr) (bytes : List Byte) (value : State → Byte) : Prop :=
  (∀ rest, decode (bytes ++ rest) = .ok (i, rest)) ∧
    ∀ s, exec i s =
      .next { s with a := value s, p := statusAfterResult s.p (value s), pc := s.pc + BitVec.ofNat 16 bytes.length }

/-- `bytes` is the encoding of `i`, and `i` runs from every state: C, Z and N compare A with `value`, PC goes past the
bytes, and nothing else changes. -/
def ComparesByte (i : Instr) (bytes : List Byte) (value : State → Byte) : Prop :=
  (∀ rest, decode (bytes ++ rest) = .ok (i, rest)) ∧
    ∀ s, exec i s =
      .next { s with p := statusAfterCompare s.p s.a (value s), pc := s.pc + BitVec.ofNat 16 bytes.length }

/-- The byte at a zero-page address, `M[n mod 256]`. -/
def zeroPageByte (n : Nat) (s : State) : Byte := s.readByte (BitVec.ofNat 16 (n % 256))

/-- The 16-bit number whose low byte is at `n` in the zero page and whose high byte is at `n + 1`, both mod 256. -/
def zeroPageNumber (n : Nat) (s : State) : Nat :=
  (zeroPageByte (n + 1) s).toNat * 256 + (zeroPageByte n s).toNat

/-- The byte at an address computed mod 65536. -/
def byteAt (n : Nat) (s : State) : Byte := s.readByte (BitVec.ofNat 16 (n % 65536))

end Sys2Proof.Machine
end

