-- ==== Sys2Proof/Certificates/Slice0/Obligations.lean ====
section
/-! DEFINITION. The statements about the engine, each with the rule of spec/ it formalises. -/

open Sys2Proof Sys2Proof.Machine

/-! ### Encoding -/

/-- Words written out from 30_encoding.md R56 and 95_test_vectors.md, one or more a family, decode to the instruction
they stand for, and 0xEA to none. -/
def Obligations.WrittenWordsDecode : Prop :=
  decode [0x00] = .ok (.brk, []) ∧
  decode [0xA9, 0x05, 0x00] = .ok (.ldaImmediate 0x05, [0x00]) ∧
  decode [0xAD, 0x34, 0x12] = .ok (.ldaAbsolute 0x1234, []) ∧
  decode [0xB1, 0x86] = .ok (.ldaIndirectY 0x86, []) ∧
  decode [0xAA] = .ok (.tax, []) ∧
  decode [0xE8] = .ok (.inx, []) ∧
  decode [0xC9, 0x42] = .ok (.cmpImmediate 0x42, []) ∧
  decode [0xDD, 0x34, 0x12] = .ok (.cmpAbsoluteX 0x1234, []) ∧
  decode [0xC1, 0xFE] = .ok (.cmpIndirectX 0xFE, []) ∧
  decode [0xEA] = .error (.unknownOpcode 0xEA)

/-- 30_encoding.md R55, R59: every instruction, at every operand value, is what its encoding decodes to. -/
def Obligations.DecodeOfEncode : Prop :=
  ∀ (i : Instr) (rest : List Byte), decode (encode i ++ rest) = .ok (i, rest)

/-- 30_encoding.md R55 to R57: whatever decodes is the encoding of what it decodes to, so each byte string has one
meaning, and its length is one more than the width its opcode byte's descriptor gives. -/
def Obligations.EncodeOfDecode : Prop :=
  ∀ (bytes rest : List Byte) (i : Instr), decode bytes = .ok (i, rest) →
    bytes = encode i ++ rest ∧ ∃ d, iset i.opcode = some d ∧ (encode i).length = 1 + d.width

/-- 30_encoding.md R56, R60: exactly the 19 bytes written out have a descriptor, and any other byte is no instruction
whatever follows it. -/
def Obligations.NineteenOpcodes : Prop :=
  tableOpcodes.Nodup ∧ tableOpcodes.length = 19 ∧
  ∀ b : Byte, (b ∈ tableOpcodes ↔ ∃ d, iset b = some d) ∧
    (b ∉ tableOpcodes → ∀ rest, decode (b :: rest) = .error (.unknownOpcode b))

/-! ### The load family (41_load.md) -/

/-- 41_load.md R101. -/
def Obligations.LdaImmediateResult : Prop :=
  ∀ nn : Byte, LoadsByte (.ldaImmediate nn) [0xA9, nn] (fun _ => nn)

/-- 41_load.md R102. -/
def Obligations.LdaZeroPageResult : Prop :=
  ∀ nn : Byte, LoadsByte (.ldaZeroPage nn) [0xA5, nn] (fun s => zeroPageByte nn.toNat s)

/-- 41_load.md R103. -/
def Obligations.LdaZeroPageXResult : Prop :=
  ∀ nn : Byte, LoadsByte (.ldaZeroPageX nn) [0xB5, nn] (fun s => zeroPageByte (nn.toNat + s.x.toNat) s)

/-- 41_load.md R104. -/
def Obligations.LdaAbsoluteResult : Prop :=
  ∀ ll hh : Byte, LoadsByte (.ldaAbsolute (BitVec.ofNat 16 (hh.toNat * 256 + ll.toNat))) [0xAD, ll, hh]
    (fun s => byteAt (hh.toNat * 256 + ll.toNat) s)

/-- 41_load.md R105. -/
def Obligations.LdaAbsoluteXResult : Prop :=
  ∀ ll hh : Byte, LoadsByte (.ldaAbsoluteX (BitVec.ofNat 16 (hh.toNat * 256 + ll.toNat))) [0xBD, ll, hh]
    (fun s => byteAt (hh.toNat * 256 + ll.toNat + s.x.toNat) s)

/-- 41_load.md R106. -/
def Obligations.LdaAbsoluteYResult : Prop :=
  ∀ ll hh : Byte, LoadsByte (.ldaAbsoluteY (BitVec.ofNat 16 (hh.toNat * 256 + ll.toNat))) [0xB9, ll, hh]
    (fun s => byteAt (hh.toNat * 256 + ll.toNat + s.y.toNat) s)

/-- 41_load.md R107. -/
def Obligations.LdaIndirectXResult : Prop :=
  ∀ nn : Byte, LoadsByte (.ldaIndirectX nn) [0xA1, nn] (fun s => byteAt (zeroPageNumber (nn.toNat + s.x.toNat) s) s)

/-- 41_load.md R108. -/
def Obligations.LdaIndirectYResult : Prop :=
  ∀ nn : Byte, LoadsByte (.ldaIndirectY nn) [0xB1, nn] (fun s => byteAt (zeroPageNumber nn.toNat s + s.y.toNat) s)

/-! ### The transfer, increment and halt families -/

/-- 42_transfer.md R110: the result from every state; the one memory access; and the overrun that a step raises instead
at 0xFFFF with `TOP_WRAP = fault`. -/
def Obligations.TaxResult : Prop :=
  (∀ rest, decode (0xAA :: rest) = .ok (.tax, rest)) ∧
  (∀ s, exec .tax s = .next { s with x := s.a, p := statusAfterResult s.p s.a, pc := s.pc + 1 }) ∧
  (∀ tw s, s.rs = .running → s.readByte s.pc = 0xAA → stepAccesses tw s = [s.pc]) ∧
  ∀ s, s.rs = .running → s.readByte s.pc = 0xAA → s.pc = 0xFFFF →
    step s = .next { s with rs := .halted, err := some ⟨.addressOverrun, 0xAA, 0xFFFF⟩ }

/-- 43_increment.md R115: the result from every state; the one memory access; and the overrun that a step raises instead
at 0xFFFF with `TOP_WRAP = fault`. -/
def Obligations.InxResult : Prop :=
  (∀ rest, decode (0xE8 :: rest) = .ok (.inx, rest)) ∧
  (∀ s, exec .inx s =
    .next { s with x := BitVec.ofNat 8 ((s.x.toNat + 1) % 256),
                   p := statusAfterResult s.p (BitVec.ofNat 8 ((s.x.toNat + 1) % 256)), pc := s.pc + 1 }) ∧
  (∀ tw s, s.rs = .running → s.readByte s.pc = 0xE8 → stepAccesses tw s = [s.pc]) ∧
  ∀ s, s.rs = .running → s.readByte s.pc = 0xE8 → s.pc = 0xFFFF →
    step s = .next { s with rs := .halted, err := some ⟨.addressOverrun, 0xE8, 0xFFFF⟩ }

/-- 45_halt.md R130: PC and the run state are all that changes; the report of a Running engine being none
(State.Inv), the outcome is Halt; the opcode byte is all that is read; at 0xFFFF with `TOP_WRAP = fault` a step raises
the overrun instead. -/
def Obligations.BrkResult : Prop :=
  (∀ rest, decode (0x00 :: rest) = .ok (.brk, rest)) ∧
  (∀ s, exec .brk s = .next { s with pc := s.pc + 1, rs := .halted }) ∧
  (∀ tw s, s.Inv → s.rs = .running → s.readByte s.pc = 0x00 → (tw = .wrap ∨ s.pc ≠ 0xFFFF) →
    hostStep tw s = (.halt, { s with pc := s.pc + 1, rs := .halted })) ∧
  (∀ tw s, s.rs = .running → s.readByte s.pc = 0x00 → stepAccesses tw s = [s.pc]) ∧
  ∀ s, s.rs = .running → s.readByte s.pc = 0x00 → s.pc = 0xFFFF →
    step s = .next { s with rs := .halted, err := some ⟨.addressOverrun, 0x00, 0xFFFF⟩ }

/-! ### The compare family (44_compare.md) -/

/-- 44_compare.md R121. -/
def Obligations.CmpImmediateResult : Prop :=
  ∀ nn : Byte, ComparesByte (.cmpImmediate nn) [0xC9, nn] (fun _ => nn)

/-- 44_compare.md R122. -/
def Obligations.CmpZeroPageResult : Prop :=
  ∀ nn : Byte, ComparesByte (.cmpZeroPage nn) [0xC5, nn] (fun s => zeroPageByte nn.toNat s)

/-- 44_compare.md R123. -/
def Obligations.CmpZeroPageXResult : Prop :=
  ∀ nn : Byte, ComparesByte (.cmpZeroPageX nn) [0xD5, nn] (fun s => zeroPageByte (nn.toNat + s.x.toNat) s)

/-- 44_compare.md R124. -/
def Obligations.CmpAbsoluteResult : Prop :=
  ∀ ll hh : Byte, ComparesByte (.cmpAbsolute (BitVec.ofNat 16 (hh.toNat * 256 + ll.toNat))) [0xCD, ll, hh]
    (fun s => byteAt (hh.toNat * 256 + ll.toNat) s)

/-- 44_compare.md R125. -/
def Obligations.CmpAbsoluteXResult : Prop :=
  ∀ ll hh : Byte, ComparesByte (.cmpAbsoluteX (BitVec.ofNat 16 (hh.toNat * 256 + ll.toNat))) [0xDD, ll, hh]
    (fun s => byteAt (hh.toNat * 256 + ll.toNat + s.x.toNat) s)

/-- 44_compare.md R126. -/
def Obligations.CmpAbsoluteYResult : Prop :=
  ∀ ll hh : Byte, ComparesByte (.cmpAbsoluteY (BitVec.ofNat 16 (hh.toNat * 256 + ll.toNat))) [0xD9, ll, hh]
    (fun s => byteAt (hh.toNat * 256 + ll.toNat + s.y.toNat) s)

/-- 44_compare.md R127. -/
def Obligations.CmpIndirectXResult : Prop :=
  ∀ nn : Byte, ComparesByte (.cmpIndirectX nn) [0xC1, nn]
    (fun s => byteAt (zeroPageNumber (nn.toNat + s.x.toNat) s) s)

/-- 44_compare.md R128. -/
def Obligations.CmpIndirectYResult : Prop :=
  ∀ nn : Byte, ComparesByte (.cmpIndirectY nn) [0xD1, nn]
    (fun s => byteAt (zeroPageNumber nn.toNat s + s.y.toNat) s)

/-- 44_compare.md R120, the table of the three relations: for every compare form, C, Z and N (bits 0, 1, 7 of P) by the
order of A and the operand `m` as numbers. -/
def Obligations.CompareRelations : Prop :=
  ∀ (i : Instr) (op : Operand) (s : State), i.mnemonic = .cmp → instrOperand i = some op →
    ∃ t, exec i s = .next t ∧ t.a = s.a ∧
      (s.a.toNat > (op.value s).toNat →
        t.p.getLsbD 0 = true ∧ t.p.getLsbD 1 = false ∧
          t.p.getLsbD 7 = decide (128 ≤ s.a.toNat - (op.value s).toNat)) ∧
      (s.a.toNat = (op.value s).toNat →
        t.p.getLsbD 0 = true ∧ t.p.getLsbD 1 = true ∧ t.p.getLsbD 7 = false) ∧
      (s.a.toNat < (op.value s).toNat →
        t.p.getLsbD 0 = false ∧ t.p.getLsbD 1 = false ∧
          t.p.getLsbD 7 = decide (128 ≤ s.a.toNat + 256 - (op.value s).toNat))

/-! ### The flag policy and the frame -/

/-- 40_engine.md R86: `SetZN` writes bits 1 and 7 of P and nothing else, with the three possible outcomes. -/
def Obligations.ZeroNegativePolicy : Prop :=
  ∀ (s : State) (r : Byte),
    s.setZN r = { s with p := statusAfterResult s.p r } ∧
    (r.toNat = 0 → (s.setZN r).p.getLsbD 1 = true ∧ (s.setZN r).p.getLsbD 7 = false) ∧
    (1 ≤ r.toNat ∧ r.toNat ≤ 0x7F → (s.setZN r).p.getLsbD 1 = false ∧ (s.setZN r).p.getLsbD 7 = false) ∧
    (0x80 ≤ r.toNat → (s.setZN r).p.getLsbD 1 = false ∧ (s.setZN r).p.getLsbD 7 = true)

/-- 40_engine.md R86, R87 (10_state.md R18, whose last clause the spec marks as derived): after an instruction that
affects Z and N they describe its result: the new A of LDA, the new X of TAX and INX, the difference of CMP; and they
are never both 1. -/
def Obligations.ResultFlagsDescribeResult : Prop :=
  ∀ (i : Instr) (s : State), i.mnemonic ≠ .brk →
    ∃ t, exec i s = .next t ∧
      (i.mnemonic = .lda → t.p.getLsbD 1 = (t.a == 0x00) ∧ t.p.getLsbD 7 = t.a.getLsbD 7) ∧
      (i.mnemonic = .tax ∨ i.mnemonic = .inx → t.p.getLsbD 1 = (t.x == 0x00) ∧ t.p.getLsbD 7 = t.x.getLsbD 7) ∧
      (∀ op, i.mnemonic = .cmp → instrOperand i = some op →
        t.p.getLsbD 1 = (s.a - op.value s == 0x00) ∧ t.p.getLsbD 7 = (s.a - op.value s).getLsbD 7) ∧
      ¬ (t.p.getLsbD 1 = true ∧ t.p.getLsbD 7 = true)

/-- The frame of every instruction (41_load.md R100, 42_transfer.md R110, 43_increment.md R115, 44_compare.md R120,
45_halt.md R130; 10_state.md R16): what each leaves as it was. No form stores to memory, so every byte reads as
before. -/
def Obligations.InstructionFrame : Prop :=
  ∀ (i : Instr) (s : State), ∃ t, exec i s = .next t ∧
    t.y = s.y ∧ t.sp = s.sp ∧ t.err = s.err ∧ (∀ q, t.readByte q = s.readByte q) ∧
    (i.mnemonic ≠ .lda → t.a = s.a) ∧
    (i.mnemonic ≠ .tax → i.mnemonic ≠ .inx → t.x = s.x) ∧
    (i.mnemonic ≠ .brk → t.rs = s.rs) ∧
    (∀ k, k ≠ 0 → k ≠ 1 → k ≠ 7 → t.p.getLsbD k = s.p.getLsbD k) ∧
    (i.mnemonic ≠ .cmp → t.p.getLsbD 0 = s.p.getLsbD 0) ∧
    (i.mnemonic = .brk → t.p = s.p)

/-! ### The step (40_engine.md) -/

/-- 40_engine.md R81: a Running engine whose bytes at PC decode to `i`, with room below the top of the address space,
runs `i` and nothing else; `exec` moves PC past the instruction itself. -/
def Obligations.StepRunsDecodedInstruction : Prop :=
  ∀ (tw : TopWrap) (s : State) (i : Instr) (rest : List Byte), s.rs = .running →
    decode [s.readByte s.pc, s.readByte (s.pc + 1), s.readByte (s.pc + 2)] = .ok (i, rest) →
    (tw = .fault → s.pc.toNat + 1 + i.width ≤ 0xFFFF) →
    engineStep tw s = exec i s ∧ (tw = .fault → step s = exec i s)

/-- 40_engine.md R83: a Halted engine does nothing on `step` or `run`, reads no memory, and answers AlreadyHalted; only
`reset` makes it Running, no other operation of the host does. -/
def Obligations.HaltedEngineDoesNothing : Prop :=
  ∀ (tw : TopWrap) (s : State), s.rs = .halted →
    engineStep tw s = .next s ∧ hostStep tw s = (.alreadyHalted, s) ∧
    (∀ n, runFor tw (n + 1) s = some (.alreadyHalted, s)) ∧ stepAccesses tw s = [] ∧ (resetOp s).rs = .running ∧
    (∀ w t, hostWrite tw w s = .ok t → t.rs = .halted) ∧ ∀ image t, load image s = .ok t → t.rs = .halted

/-- 60_exceptions.md R141: a byte outside the 19, fetched as an opcode, raises UnknownOpcode. At 0xFFFF with
`TOP_WRAP = fault` the overrun comes first (R145). -/
def Obligations.UnknownOpcodeFaults : Prop :=
  ∀ (tw : TopWrap) (s : State), s.rs = .running → s.readByte s.pc ∉ tableOpcodes →
    (tw = .fault → s.pc ≠ 0xFFFF) →
    engineStep tw s =
        .next { s with pc := s.pc + 1, rs := .halted, err := some ⟨.unknownOpcode, s.readByte s.pc, s.pc⟩ } ∧
      (hostStep tw s).1 = .fault ⟨.unknownOpcode, s.readByte s.pc, s.pc⟩

/-- 60_exceptions.md R143: the overrun at 0xFFFF for any byte there, the overrun of an instruction that would end above
the top, the error of a host 16-bit access at 0xFFFF, and that none of them exists with `TOP_WRAP = wrap`. -/
def Obligations.AddressOverrunFaults : Prop :=
  (∀ s : State, s.rs = .running → s.pc = 0xFFFF →
    step s = .next { s with rs := .halted, err := some ⟨.addressOverrun, s.readByte 0xFFFF, 0xFFFF⟩ }) ∧
  (∀ (s : State) (d : Descriptor), s.rs = .running → s.pc ≠ 0xFFFF → iset (s.readByte s.pc) = some d →
    s.pc.toNat + 1 + d.width > 0xFFFF →
    step s =
      .next { s with pc := s.pc + 1, rs := .halted, err := some ⟨.addressOverrun, s.readByte s.pc, s.pc⟩ }) ∧
  (∀ (s : State) (v : Addr), hostRead16 .fault 0xFFFF s = .error .addressOverrun ∧
    hostWrite .fault (.word 0xFFFF v) s = .error .addressOverrun) ∧
  (∀ (s t : State) (f : FaultReport), engineStep .wrap s = .next t → t.err = some f → f.kind = .addressOverrun →
    s.err = some f) ∧
  ∀ (s : State) (a v : Addr), (∃ r, hostRead16 .wrap a s = .ok r) ∧ ∃ t, hostWrite .wrap (.word a v) s = .ok t

/-- 60_exceptions.md R140: what every fault leaves. The registers, the flags and memory are as before the step, the
report names the byte fetched and its address, PC is one past it but for an overrun at 0xFFFF, and no instruction runs
after it. -/
def Obligations.FaultsArePrecise : Prop :=
  ∀ (tw : TopWrap) (s t : State) (f : FaultReport), s.Inv → hostStep tw s = (.fault f, t) →
    t.a = s.a ∧ t.x = s.x ∧ t.y = s.y ∧ t.sp = s.sp ∧ t.p = s.p ∧ t.mem = s.mem ∧
    t.rs = .halted ∧ t.err = some f ∧ f.opcode = s.readByte s.pc ∧ f.addr = s.pc ∧
    (f.kind = .addressOverrun ∧ s.pc = 0xFFFF → t.pc = 0xFFFF) ∧
    (¬ (f.kind = .addressOverrun ∧ s.pc = 0xFFFF) → t.pc = s.pc + 1) ∧
    hostStep tw t = (.alreadyHalted, t)

/-- 40_engine.md R89: every state has exactly one next state; no step ends in a fault outcome or a refusal. -/
def Obligations.EveryStepAnswersNext : Prop :=
  ∀ (tw : TopWrap) (s : State), ∃ t, engineStep tw s = .next t ∧ stepState tw s = t

/-- 30_encoding.md R56, R71 (60_exceptions.md R142, whose unreachability the spec marks as derived): with this table
InvalidAddressingMode is never raised. -/
def Obligations.InvalidAddressingModeUnreachable : Prop :=
  ∀ (tw : TopWrap) (s t : State) (f : FaultReport), engineStep tw s = .next t → t.err = some f →
    f.kind = .invalidAddressingMode → s.err = some f

/-- 10_state.md R20 and 40_engine.md R93: a step of a Running engine leaves it Running exactly when the byte at PC has
a descriptor, is not the halt opcode and, with `TOP_WRAP = fault`, leaves the successor address at most 0xFFFF. -/
def Obligations.EngineStopsExactlyWhen : Prop :=
  ∀ (tw : TopWrap) (s : State), s.rs = .running →
    ((stepState tw s).rs = .running ↔
      ∃ d, iset (s.readByte s.pc) = some d ∧ s.readByte s.pc ≠ 0x00 ∧
        (tw = .fault → s.pc.toNat + 1 + d.width ≤ 0xFFFF))

/-- 40_engine.md R81 and 30_encoding.md R56 (40_engine.md R88, which the spec marks as derived): PC after a completed
step, by opcode byte, whatever the data, the flags and the effective address. -/
def Obligations.CompletedStepAdvancesPc : Prop :=
  ∀ (tw : TopWrap) (s t : State) (o : RunOutcome), hostStep tw s = (o, t) → o = .continues ∨ o = .halt →
    (s.readByte s.pc ∈ ([0x00, 0xAA, 0xE8] : List Byte) → t.pc = s.pc + 1) ∧
    (s.readByte s.pc ∈ ([0xA9, 0xA5, 0xB5, 0xA1, 0xB1, 0xC9, 0xC5, 0xD5, 0xC1, 0xD1] : List Byte) → t.pc = s.pc + 2) ∧
    (s.readByte s.pc ∈ ([0xAD, 0xBD, 0xB9, 0xCD, 0xDD, 0xD9] : List Byte) → t.pc = s.pc + 3)

/-! ### The Addressing-Mode Resolver (30_encoding.md) -/

/-- 30_encoding.md R63, R64, R65: the zero-page modes, from a state whose PC is at the operand byte. -/
def Obligations.ResolverZeroPageModes : Prop :=
  ∀ (tw : TopWrap) (opcode : Byte) (a : Addr) (s : State),
    resolve tw opcode a .zeroPage s = .ok (BitVec.ofNat 16 (s.readByte s.pc).toNat) ∧
    resolve tw opcode a .zeroPageX s = .ok (BitVec.ofNat 16 (((s.readByte s.pc).toNat + s.x.toNat) % 256)) ∧
    resolve tw opcode a .zeroPageY s = .ok (BitVec.ofNat 16 (((s.readByte s.pc).toNat + s.y.toNat) % 256))

/-- 30_encoding.md R66, R67, R68: the absolute modes, the 16-bit operand at PC; and 20_memory.md R36 where it would be
read at 0xFFFF. -/
def Obligations.ResolverAbsoluteModes : Prop :=
  ∀ (tw : TopWrap) (opcode : Byte) (a : Addr) (s : State) (base : Nat),
    base = (s.readByte (s.pc + 1)).toNat * 256 + (s.readByte s.pc).toNat →
    ((tw = .fault → s.pc ≠ 0xFFFF) →
      resolve tw opcode a .absolute s = .ok (BitVec.ofNat 16 base) ∧
      resolve tw opcode a .absoluteX s = .ok (BitVec.ofNat 16 ((base + s.x.toNat) % 65536)) ∧
      resolve tw opcode a .absoluteY s = .ok (BitVec.ofNat 16 ((base + s.y.toNat) % 65536))) ∧
    (tw = .fault ∧ s.pc = 0xFFFF →
      resolve tw opcode a .absolute s = .error ⟨.addressOverrun, opcode, a⟩ ∧
      resolve tw opcode a .absoluteX s = .error ⟨.addressOverrun, opcode, a⟩ ∧
      resolve tw opcode a .absoluteY s = .error ⟨.addressOverrun, opcode, a⟩)

/-- 30_encoding.md R69, R70: the indirect modes; both pointer bytes are in the zero page. -/
def Obligations.ResolverIndirectModes : Prop :=
  ∀ (tw : TopWrap) (opcode : Byte) (a : Addr) (s : State),
    resolve tw opcode a .indirectX s =
      .ok (BitVec.ofNat 16 (zeroPageNumber ((s.readByte s.pc).toNat + s.x.toNat) s)) ∧
    resolve tw opcode a .indirectY s =
      .ok (BitVec.ofNat 16 ((zeroPageNumber (s.readByte s.pc).toNat s + s.y.toNat) % 65536))

/-- 30_encoding.md R62, R71: Immediate is the operand's own location; NoneAddressing is a fault. -/
def Obligations.ResolverImmediateAndNone : Prop :=
  ∀ (tw : TopWrap) (opcode : Byte) (a : Addr) (s : State),
    resolve tw opcode a .immediate s = .ok s.pc ∧
    referenceOperand tw opcode a .immediate s = .ok (s.readByte s.pc) ∧
    resolve tw opcode a .noneAddressing s = .error ⟨.invalidAddressingMode, opcode, a⟩

/-! ### The run loop as a whole -/

/-- 40_engine.md R81, over its parameters `TOP_WRAP`, `HALT_OPCODE` and `ISET` (00_scope.md R6), under any values that
meet the contract of R94, which is part of `Params`: the engine, which decodes and then executes, does exactly what the
body of the run loop says, which looks the descriptor up and whose handlers resolve their addresses and read memory
themselves; and it returns what that body returns. The last clause is the machine of this spec. For a Halted engine both
do nothing, as R83 has it, which HaltedEngineDoesNothing states whole. A row without a handler stands at `HALT_OPCODE`
here; what one does elsewhere is the model's choice (log entry 12), which StepOverAnyTable states. -/
def Obligations.StepIsRunLoopBody : Prop :=
  (∀ (M I : Type) (pr : Params M I) (s : State),
    (∀ r ∈ pr.table, pr.handler r.2.mnemonic = none → r.1 = pr.haltOpcode) →
      paramStep pr s = .next (referenceStep pr.topWrap pr.haltOpcode pr.table pr.handler s).2 ∧
        (s.reportsOnlyHalted →
          paramHostStep pr s = referenceStep pr.topWrap pr.haltOpcode pr.table pr.handler s ∧
            (paramState pr s).reportsOnlyHalted)) ∧
  ∀ (tw : TopWrap) (s : State),
    engineStep tw s = .next (referenceStep tw 0x00 isetRows handlerOf s).2 ∧
      (s.Inv → hostStep tw s = referenceStep tw 0x00 isetRows handlerOf s)

/-- The invariant at reset. -/
def Obligations.ResetMeetsInvariant : Prop := State.reset.Inv

/-- The invariant is kept by every step, under both values of `TOP_WRAP`: memory stays in canonical form, and a report
stands only in a Halted engine and is truthful (60_exceptions.md R140 to R143). -/
def Obligations.StepKeepsInvariant : Prop :=
  ∀ (tw : TopWrap) (s t : State), s.Inv → engineStep tw s = .next t → t.Inv

/-- The canonical form of memory is kept by every operation of the host. -/
def Obligations.HostKeepsCanonicalMemory : Prop :=
  ∀ (tw : TopWrap) (s t : State), s.mem.wf →
    (resetOp s).mem.wf ∧ (∀ image, load image s = .ok t → t.mem.wf) ∧ ∀ w, hostWrite tw w s = .ok t → t.mem.wf

/-- 40_engine.md R81, R82 (the consequence the spec marks as derived in R92), under `TOP_WRAP = fault`, the value the
model's `step` and `run` take (log entry 4): PC strictly rises from step to step, so every run ends within 65 536
steps. -/
def Obligations.EveryRunEnds : Prop :=
  (∀ s t : State, s.rs = .running → step s = .next t → t.rs = .running → s.pc.toNat < t.pc.toNat) ∧
  ∀ s : State, ∃ o t, run s = some (o, t) ∧ o ≠ .continues ∧ t.rs = .halted

/-- 40_engine.md R93: a run of a Running engine ends in two ways only, by the byte 0x00 executed as an opcode (a final
state) or by a fault (never a final state). -/
def Obligations.RunEndsByHaltOrFault : Prop :=
  ∀ (tw : TopWrap) (n : Nat) (s t : State) (o : RunOutcome), s.Inv → s.rs = .running → runFor tw n s = some (o, t) →
    (o = .halt ∧ t.final ∧ t.readByte (t.pc - 1) = 0x00) ∨ (∃ f, o = .fault f ∧ t.err = some f ∧ t.faulted)

/-- What each instruction leaves (41_load.md R100, 42_transfer.md R110, 43_increment.md R115, 44_compare.md R120,
45_halt.md R130), what a fault leaves (60_exceptions.md R140) and 10_state.md R13, R16, along a run: no byte of
memory, not Y, not SP, and none of the flags I, D, B, U, V (bits 2 to 6 of P) changes. That no instruction writes Y or
memory is an inference the spec marks as its own in 10_state.md R12 and R22. -/
def Obligations.RunKeepsMemoryYSpInertFlags : Prop :=
  ∀ (tw : TopWrap) (n : Nat) (s t : State) (o : RunOutcome), runFor tw n s = some (o, t) →
    (∀ q, t.readByte q = s.readByte q) ∧ t.y = s.y ∧ t.sp = s.sp ∧
    ∀ k, 2 ≤ k → k ≤ 6 → t.p.getLsbD k = s.p.getLsbD k

/-! ### What a step may depend on -/

/-- 40_engine.md R85: no handler reads a flag (10_state.md R17, which the spec marks as derived). Two engines that
differ in P alone step to engines that differ in P alone, and each bit of P is either kept by both or written with the
same value by both. -/
def Obligations.FlagsSteerNothing : Prop :=
  ∀ (tw : TopWrap) (s : State) (q : Byte), ∃ t q', engineStep tw s = .next t ∧
    engineStep tw { s with p := q } = .next { t with p := q' } ∧
    ∀ k, (t.p.getLsbD k = s.p.getLsbD k ∧ q'.getLsbD k = q.getLsbD k) ∨ q'.getLsbD k = t.p.getLsbD k

/-- 10_state.md R13: SP steers nothing, no step and no operation of the host writes it, and reading it is a fault. -/
def Obligations.StackPointerIsInert : Prop :=
  ∀ (tw : TopWrap) (s : State) (v : Byte),
    (∃ t, engineStep tw s = .next t ∧ t.sp = s.sp ∧ engineStep tw { s with sp := v } = .next { t with sp := v }) ∧
    resetOp { s with sp := v } = { resetOp s with sp := v } ∧ (resetOp s).sp = s.sp ∧
    inspect s .sp = .error .stackPointerRead ∧
    (∀ w t, hostWrite tw w s = .ok t → t.sp = s.sp) ∧ ∀ image t, load image s = .ok t → t.sp = s.sp

/-- 40_engine.md R81, 30_encoding.md R62 to R70 (the list R90 of 40_engine.md, which the spec marks as derived): a
step depends on no byte of memory but those the access list of the step names. -/
def Obligations.StepReadsOnlyItsAccesses : Prop :=
  ∀ (tw : TopWrap) (s : State) (m : Memory), (∀ q ∈ stepAccesses tw s, memRead m q.toNat = s.readByte q) →
    ∃ t, engineStep tw s = .next t ∧ engineStep tw { s with mem := m } = .next { t with mem := m }

/-! ### Memory (20_memory.md) -/

/-- 20_memory.md R32, R33: a byte read after a write to it is the byte written, a write leaves every other byte and
every register alone, and a read changes nothing. -/
def Obligations.ByteReadAfterWrite : Prop :=
  ∀ (s : State) (a b : Addr) (v : Byte), s.mem.wf →
    (s.writeByte a v).readByte a = v ∧ (b ≠ a → (s.writeByte a v).readByte b = s.readByte b) ∧
    (s.writeByte a v).mem.wf ∧ s.writeByte a v = { s with mem := (s.writeByte a v).mem }

/-- 20_memory.md R34, R35, R37 (little-endian), and R36 at 0xFFFF under both values of `TOP_WRAP`. -/
def Obligations.WordAccessIsLittleEndian : Prop :=
  ∀ (tw : TopWrap) (s : State) (a v : Addr), s.mem.wf →
    ((tw = .fault → a ≠ 0xFFFF) →
      s.read16 tw a = some (BitVec.ofNat 16 ((s.readByte (a + 1)).toNat * 256 + (s.readByte a).toNat)) ∧
      ∃ t, s.write16 tw a v = some t ∧ (t.readByte a).toNat = v.toNat % 256 ∧
        (t.readByte (a + 1)).toNat = v.toNat / 256 ∧ t.read16 tw a = some v ∧
        (∀ b, b ≠ a → b ≠ a + 1 → t.readByte b = s.readByte b) ∧ t = { s with mem := t.mem }) ∧
    (tw = .fault ∧ a = 0xFFFF → s.read16 tw a = none ∧ s.write16 tw a v = none)

/-- The canonical form is canonical: memories in it that read alike at every address are equal. -/
def Obligations.CanonicalMemoryIsUnique : Prop :=
  ∀ m m' : Memory, m.wf → m'.wf → (∀ a : Addr, memRead m a.toNat = memRead m' a.toNat) → m = m'

/-- 20_memory.md R40, R41, 60_exceptions.md R144: an image that fits is copied verbatim from 0x8000 on, then the vector
is set to 0x8000, which wins over the image; no other byte and no register changes. A longer one is an error. -/
def Obligations.LoadPlacesImageAndVector : Prop :=
  ∀ (image : List Byte) (s : State), s.mem.wf →
    (image.length ≤ 0x8000 → ∃ t, load image s = .ok t ∧
      (∀ (k : Nat) (h : k < image.length), k ≠ 0x7FFC → k ≠ 0x7FFD →
        t.readByte (BitVec.ofNat 16 (0x8000 + k)) = image[k]) ∧
      t.readByte 0xFFFC = 0x00 ∧ t.readByte 0xFFFD = 0x80 ∧
      (∀ q : Addr, q.toNat < 0x8000 ∨ 0x8000 + image.length ≤ q.toNat → q ≠ 0xFFFC → q ≠ 0xFFFD →
        t.readByte q = s.readByte q) ∧
      t = { s with mem := t.mem }) ∧
    (image.length > 0x8000 → load image s = .error (.loadOverflow image.length))

/-- 20_memory.md R46, 40_engine.md R81 (20_memory.md R49, which the spec marks as derived): fetch is coherent with
writes. An instruction written at PC between steps is the one that runs. -/
def Obligations.WrittenInstructionRuns : Prop :=
  ∀ (i : Instr) (s : State), s.mem.wf → s.rs = .running → s.pc.toNat + 1 + i.width ≤ 0xFFFF →
    step (State.writeBytes (encode i) s.pc s) = exec i (State.writeBytes (encode i) s.pc s)

/-! ### Construction, reset and the host (70_reset_and_hazards.md) -/

/-- 70_reset_and_hazards.md R162, 10_state.md R25: `reset` from any state. -/
def Obligations.ResetValues : Prop :=
  ∀ s : State, resetOp s =
    { a := 0x00, x := 0x00, y := 0x00, sp := s.sp,
      pc := BitVec.ofNat 16 ((s.readByte 0xFFFD).toNat * 256 + (s.readByte 0xFFFC).toNat), p := 0x00, mem := s.mem,
      rs := .running, err := none }

/-- 70_reset_and_hazards.md R160, R162 (R165, which the spec marks as derived): construction zero-fills memory and
leaves the engine Halted with no report; reset without load starts at 0x0000, where the zero fill halts it after one
step. That the constructed engine after `reset` is `State.reset` includes the SP slot, whose value is the model's
choice (log entry 2). -/
def Obligations.ResetWithoutLoadHalts : Prop :=
  (∀ q, State.powerOn.readByte q = 0x00) ∧ State.powerOn.rs = .halted ∧ State.powerOn.err = none ∧
  resetOp State.powerOn = State.reset ∧ State.reset.pc = 0x0000 ∧
  ∃ t, run State.reset = some (.halt, t) ∧ hostStep topWrap State.reset = (.halt, t) ∧ t.pc = 0x0001 ∧
    t.a = 0x00 ∧ t.x = 0x00 ∧ t.y = 0x00 ∧ t.p = 0x00

/-- 70_reset_and_hazards.md R163: boot. After `load` of an image that begins with the encoding of `i` and stays below
the vector, and `reset`, the first step runs `i`. -/
def Obligations.BootRunsFirstInstruction : Prop :=
  ∀ (i : Instr) (rest : List Byte) (s : State), s.mem.wf → (encode i ++ rest).length ≤ 0x7FFC →
    ∃ t, load (encode i ++ rest) s = .ok t ∧ (resetOp t).pc = 0x8000 ∧ (resetOp t).rs = .running ∧
      step (resetOp t) = exec i (resetOp t)

/-- 10_state.md R28: a host write changes exactly the state it names; and R27: what the surface then shows. -/
def Obligations.HostWriteChangesWhatItNames : Prop :=
  ∀ (tw : TopWrap) (s : State) (v : Byte) (w q r : Addr), s.mem.wf →
    (∃ t, hostWrite tw (.a v) s = .ok t ∧ t = { s with a := v } ∧ inspect t .a = .ok (.byte v)) ∧
    (∃ t, hostWrite tw (.x v) s = .ok t ∧ t = { s with x := v } ∧ inspect t .x = .ok (.byte v)) ∧
    (∃ t, hostWrite tw (.y v) s = .ok t ∧ t = { s with y := v } ∧ inspect t .y = .ok (.byte v)) ∧
    (∃ t, hostWrite tw (.p v) s = .ok t ∧ t = { s with p := v } ∧ inspect t .p = .ok (.byte v)) ∧
    (∃ t, hostWrite tw (.pc w) s = .ok t ∧ t = { s with pc := w } ∧ inspect t .pc = .ok (.addr w)) ∧
    (∃ t, hostWrite tw (.byte q v) s = .ok t ∧ t = { s with mem := t.mem } ∧ inspectMemory q t = v ∧
      (r ≠ q → inspectMemory r t = inspectMemory r s))

/-! ### The open parameters (00_scope.md R6) -/

/-- 40_engine.md R81, R85, R87, R94, 00_scope.md R2, R6, 10_state.md R23: the step over any table of any instructions
that meets the contract, any halt opcode and either `TOP_WRAP`, in the order of the loop body: the overrun at 0xFFFF,
the look-up, the overrun of the successor by the descriptor's width, the halt, and then the meaning of the instruction
the handler makes of the operand bytes. Where the mnemonic has a handler, the meaning leaves SP, the run state and the
report alone, moves PC past the instruction, and writes Z and N, by `SetZN`, if and only if the mnemonic is documented
as affecting them. That a mnemonic without one, BRK, halts at any other byte, here and in the loop body, is the model's
choice (log entry 12). The machine of this spec is the case of the 19 rows and 0x00. -/
def Obligations.StepOverAnyTable : Prop :=
  (∀ (M I : Type) (pr : Params M I) (s : State), s.rs = .running →
    (pr.topWrap = .fault ∧ s.pc = 0xFFFF →
      paramStep pr s = .next { s with rs := .halted, err := some ⟨.addressOverrun, s.readByte s.pc, s.pc⟩ }) ∧
    ((pr.topWrap = .fault → s.pc ≠ 0xFFFF) → lookup pr.table (s.readByte s.pc) = none →
      paramStep pr s =
        .next { s with pc := s.pc + 1, rs := .halted, err := some ⟨.unknownOpcode, s.readByte s.pc, s.pc⟩ }) ∧
    ∀ d, (pr.topWrap = .fault → s.pc ≠ 0xFFFF) → lookup pr.table (s.readByte s.pc) = some d →
      (pr.topWrap = .fault ∧ s.pc.toNat + 1 + d.width > 0xFFFF →
        paramStep pr s =
          .next { s with pc := s.pc + 1, rs := .halted, err := some ⟨.addressOverrun, s.readByte s.pc, s.pc⟩ }) ∧
      ((pr.topWrap = .fault → s.pc.toNat + 1 + d.width ≤ 0xFFFF) →
        (s.readByte s.pc = pr.haltOpcode → paramStep pr s = .next { s with pc := s.pc + 1, rs := .halted }) ∧
        (s.readByte s.pc ≠ pr.haltOpcode →
          (∃ i, paramStep pr s = pr.exec i s ∧
            (∀ j, d.handler = .implied j → i = j) ∧
            (∀ make, d.handler = .op8 make → i = make (s.readByte (s.pc + 1))) ∧
            ∀ make, d.handler = .op16 make →
              i = make (BitVec.ofNat 16 ((s.readByte (s.pc + 2)).toNat * 256 + (s.readByte (s.pc + 1)).toNat))) ∧
          (pr.handler d.mnemonic = none →
            paramStep pr s = .next { s with pc := s.pc + 1, rs := .halted } ∧
              referenceStep pr.topWrap pr.haltOpcode pr.table pr.handler s =
                (.halt, { s with pc := s.pc + 1, rs := .halted })) ∧
          ∀ b, pr.handler d.mnemonic = some b →
            ∃ t, paramStep pr s = .next t ∧ t.pc = s.pc + BitVec.ofNat 16 (1 + d.width) ∧ t.sp = s.sp ∧
              t.rs = .running ∧ t.err = s.err ∧
              (b.affectsZN = false → t.p.getLsbD 1 = s.p.getLsbD 1 ∧ t.p.getLsbD 7 = s.p.getLsbD 7) ∧
              (b.affectsZN = true → ∃ r : Byte, t.p.getLsbD 1 = (r == 0x00) ∧ t.p.getLsbD 7 = r.getLsbD 7)))) ∧
  (∀ tw : TopWrap, (Params.spec tw).topWrap = tw ∧ (Params.spec tw).haltOpcode = 0x00 ∧
    (Params.spec tw).table = isetRows ∧ (Params.spec tw).exec = exec ∧
    ∀ m, ((Params.spec tw).handler m = none ↔ m = .brk)) ∧
  ∀ (tw : TopWrap) (s : State),
    step s = paramStep (Params.spec .fault) s ∧ engineStep tw s = paramStep (Params.spec tw) s
end

