-- ==== Sys2Proof/Laws/Decode.lean ====
section
/-! SUPPORT. What the table and the decoder can answer, said once. -/

namespace Sys2Proof

/-- A descriptor found for a byte is the row of that byte. -/
theorem lookup_mem {M I : Type} {table : TableOf M I} {b : Byte} {d : DescriptorOf M I} (h : lookup table b = some d) :
    (b, d) ∈ table := by
  rw [lookup, Option.map_eq_some_iff] at h
  obtain ⟨r, hr, rfl⟩ := h
  have hm := List.mem_of_find?_eq_some hr
  have hb := List.find?_some hr
  simp only [beq_iff_eq] at hb
  subst hb
  exact hm

theorem iset_mem {b : Byte} {d : Descriptor} (h : iset b = some d) : (b, d) ∈ isetRows := lookup_mem h

theorem operandWidth_of_lookup {M I : Type} {table : TableOf M I} {b : Byte} {d : DescriptorOf M I}
    (h : lookup table b = some d) : operandWidth table b = d.width := by
  simp [operandWidth, h]

/-- Everything the operand assembly can answer: the handler's instruction, and the bytes after the operand. -/
theorem assemble_ok {I : Type} {b : Byte} {h : HandlerOf I} {bytes rest : List Byte} {i : I}
    (ha : assemble b h bytes = .ok (i, rest)) :
    (h = .implied i ∧ bytes = rest) ∨ (∃ make nn, h = .op8 make ∧ i = make nn ∧ bytes = nn :: rest) ∨
      ∃ make ll hh, h = .op16 make ∧ i = make (word16 ll hh) ∧ bytes = ll :: hh :: rest := by
  rcases h with j | make | make
  · simp only [assemble, Except.ok.injEq, Prod.mk.injEq] at ha
    exact .inl ⟨by rw [ha.1], ha.2⟩
  · rcases bytes with _ | ⟨nn, bs⟩ <;> simp only [assemble, Except.ok.injEq, Prod.mk.injEq, reduceCtorEq] at ha
    exact .inr (.inl ⟨make, nn, rfl, ha.1.symm, by rw [ha.2]⟩)
  · rcases bytes with _ | ⟨ll, _ | ⟨hh, bs⟩⟩ <;>
      simp only [assemble, Except.ok.injEq, Prod.mk.injEq, reduceCtorEq] at ha
    exact .inr (.inr ⟨make, ll, hh, rfl, ha.1.symm, by rw [ha.2]⟩)

/-- What is assembled is an instruction the handler makes. -/
theorem assemble_makes {I : Type} {b : Byte} {h : HandlerOf I} {bytes rest : List Byte} {i : I}
    (ha : assemble b h bytes = .ok (i, rest)) : h.makes i := by
  rcases assemble_ok ha with ⟨rfl, _⟩ | ⟨make, nn, rfl, hi, _⟩ | ⟨make, ll, hh, rfl, hi, _⟩
  · exact rfl
  · exact ⟨nn, hi⟩
  · exact ⟨_, hi⟩

/-- Two bytes are operand enough for every handler. -/
theorem assemble_two {I : Type} (b : Byte) (h : HandlerOf I) (b1 b2 : Byte) :
    ∃ i rest, assemble b h [b1, b2] = .ok (i, rest) := by
  cases h <;> exact ⟨_, _, rfl⟩

/-- The instructions of a row of the spec's table: its opcode byte, width, mnemonic and tag. -/
theorem isetRows_makes {r : Byte × Descriptor} (hr : r ∈ isetRows) {i : Instr} (hi : r.2.handler.makes i) :
    i.opcode = r.1 ∧ i.width = r.2.width ∧ i.mnemonic = r.2.mnemonic ∧ i.mode = r.2.mode := by
  simp only [isetRows, isetImplied, isetLoad, isetCompare, List.cons_append, List.nil_append, List.mem_cons,
    List.not_mem_nil, or_false] at hr
  rcases hr with rfl | rfl | rfl | rfl | rfl | rfl | rfl | rfl | rfl | rfl | rfl | rfl | rfl | rfl | rfl | rfl | rfl |
    rfl | rfl
  all_goals first
    | (cases hi; exact ⟨rfl, rfl, rfl, rfl⟩)
    | (obtain ⟨nn, rfl⟩ := hi; exact ⟨rfl, rfl, rfl, rfl⟩)

/-- The table meets the contract of 40_engine.md R94. -/
theorem isetRows_wellFormed : tableWellFormed isetRows = true := by decide

/-- What decodes begins with a byte that has a descriptor, whose handler made the instruction. -/
theorem decodeWith_ok {M I : Type} {table : TableOf M I} {bytes rest : List Byte} {i : I}
    (h : decodeWith table bytes = .ok (i, rest)) :
    ∃ b bs d, bytes = b :: bs ∧ lookup table b = some d ∧ assemble b d.handler bs = .ok (i, rest) := by
  rcases bytes with _ | ⟨b, bs⟩
  · simp [decodeWith] at h
  · rcases hi : lookup table b with _ | d
    · simp [decodeWith, hi] at h
    · simp only [decodeWith, hi] at h
      exact ⟨b, bs, d, rfl, hi, h⟩

/-- Three bytes decode exactly when the first has a descriptor. -/
theorem decodeWith_three {M I : Type} (table : TableOf M I) (b b1 b2 : Byte) :
    (lookup table b = none ∧ decodeWith table [b, b1, b2] = .error (.unknownOpcode b)) ∨
      ∃ d i rest, lookup table b = some d ∧ d.handler.makes i ∧ assemble b d.handler [b1, b2] = .ok (i, rest) ∧
        decodeWith table [b, b1, b2] = .ok (i, rest) := by
  rcases hl : lookup table b with _ | d
  · exact .inl ⟨rfl, by simp [decodeWith, hl]⟩
  · obtain ⟨i, rest, ha⟩ := assemble_two b d.handler b1 b2
    exact .inr ⟨d, i, rest, rfl, assemble_makes ha, ha, by simp only [decodeWith, hl, ha]⟩

/-- What decodes in the spec's table has the opcode byte and the width of the descriptor found. -/
theorem decode_cons {b : Byte} {bs rest : List Byte} {i : Instr} (h : decode (b :: bs) = .ok (i, rest)) :
    i.opcode = b ∧ operandWidth isetRows b = i.width := by
  obtain ⟨b', bs', d, hb, hl, ha⟩ := decodeWith_ok h
  cases hb
  obtain ⟨h1, h2, _⟩ := isetRows_makes (lookup_mem hl) (assemble_makes ha)
  exact ⟨h1, by rw [operandWidth_of_lookup hl, h2]⟩

theorem encode_length (i : Instr) : (encode i).length = 1 + i.width := by
  cases i <;> rfl

theorem Instr.width_le_two (i : Instr) : i.width ≤ 2 := by
  cases i <;> simp [Instr.width, Instr.mode, Mode.width]

end Sys2Proof
end

