-- ==== Sys2Proof/Laws/State.lean ====
section
/-! SUPPORT. What each field of State is after each update: one lemma a field and update, true by definition, so that
no proof unfolds a record update. -/

namespace Sys2Proof.Machine

@[simp] theorem State.setA_a (s : State) (v : Byte) : (s.setA v).a = v := rfl
@[simp] theorem State.setA_x (s : State) (v : Byte) : (s.setA v).x = s.x := rfl
@[simp] theorem State.setA_y (s : State) (v : Byte) : (s.setA v).y = s.y := rfl
@[simp] theorem State.setA_sp (s : State) (v : Byte) : (s.setA v).sp = s.sp := rfl
@[simp] theorem State.setA_pc (s : State) (v : Byte) : (s.setA v).pc = s.pc := rfl
@[simp] theorem State.setA_p (s : State) (v : Byte) : (s.setA v).p = s.p := rfl
@[simp] theorem State.setA_mem (s : State) (v : Byte) : (s.setA v).mem = s.mem := rfl
@[simp] theorem State.setA_rs (s : State) (v : Byte) : (s.setA v).rs = s.rs := rfl
@[simp] theorem State.setA_err (s : State) (v : Byte) : (s.setA v).err = s.err := rfl
@[simp] theorem State.setA_readByte (s : State) (v : Byte) (q : Addr) : (s.setA v).readByte q = s.readByte q := rfl

@[simp] theorem State.setX_a (s : State) (v : Byte) : (s.setX v).a = s.a := rfl
@[simp] theorem State.setX_x (s : State) (v : Byte) : (s.setX v).x = v := rfl
@[simp] theorem State.setX_y (s : State) (v : Byte) : (s.setX v).y = s.y := rfl
@[simp] theorem State.setX_sp (s : State) (v : Byte) : (s.setX v).sp = s.sp := rfl
@[simp] theorem State.setX_pc (s : State) (v : Byte) : (s.setX v).pc = s.pc := rfl
@[simp] theorem State.setX_p (s : State) (v : Byte) : (s.setX v).p = s.p := rfl
@[simp] theorem State.setX_mem (s : State) (v : Byte) : (s.setX v).mem = s.mem := rfl
@[simp] theorem State.setX_rs (s : State) (v : Byte) : (s.setX v).rs = s.rs := rfl
@[simp] theorem State.setX_err (s : State) (v : Byte) : (s.setX v).err = s.err := rfl
@[simp] theorem State.setX_readByte (s : State) (v : Byte) (q : Addr) : (s.setX v).readByte q = s.readByte q := rfl

@[simp] theorem State.setP_a (s : State) (v : Byte) : (s.setP v).a = s.a := rfl
@[simp] theorem State.setP_x (s : State) (v : Byte) : (s.setP v).x = s.x := rfl
@[simp] theorem State.setP_y (s : State) (v : Byte) : (s.setP v).y = s.y := rfl
@[simp] theorem State.setP_sp (s : State) (v : Byte) : (s.setP v).sp = s.sp := rfl
@[simp] theorem State.setP_pc (s : State) (v : Byte) : (s.setP v).pc = s.pc := rfl
@[simp] theorem State.setP_p (s : State) (v : Byte) : (s.setP v).p = v := rfl
@[simp] theorem State.setP_mem (s : State) (v : Byte) : (s.setP v).mem = s.mem := rfl
@[simp] theorem State.setP_rs (s : State) (v : Byte) : (s.setP v).rs = s.rs := rfl
@[simp] theorem State.setP_err (s : State) (v : Byte) : (s.setP v).err = s.err := rfl
@[simp] theorem State.setP_readByte (s : State) (v : Byte) (q : Addr) : (s.setP v).readByte q = s.readByte q := rfl

@[simp] theorem State.advancePc_a (s : State) (n : Nat) : (s.advancePc n).a = s.a := rfl
@[simp] theorem State.advancePc_x (s : State) (n : Nat) : (s.advancePc n).x = s.x := rfl
@[simp] theorem State.advancePc_y (s : State) (n : Nat) : (s.advancePc n).y = s.y := rfl
@[simp] theorem State.advancePc_sp (s : State) (n : Nat) : (s.advancePc n).sp = s.sp := rfl
@[simp] theorem State.advancePc_pc (s : State) (n : Nat) : (s.advancePc n).pc = s.pc + BitVec.ofNat 16 n := rfl
@[simp] theorem State.advancePc_p (s : State) (n : Nat) : (s.advancePc n).p = s.p := rfl
@[simp] theorem State.advancePc_mem (s : State) (n : Nat) : (s.advancePc n).mem = s.mem := rfl
@[simp] theorem State.advancePc_rs (s : State) (n : Nat) : (s.advancePc n).rs = s.rs := rfl
@[simp] theorem State.advancePc_err (s : State) (n : Nat) : (s.advancePc n).err = s.err := rfl
@[simp] theorem State.advancePc_readByte (s : State) (n : Nat) (q : Addr) : (s.advancePc n).readByte q = s.readByte q := rfl

@[simp] theorem State.halt_a (s : State) : (s.halt).a = s.a := rfl
@[simp] theorem State.halt_x (s : State) : (s.halt).x = s.x := rfl
@[simp] theorem State.halt_y (s : State) : (s.halt).y = s.y := rfl
@[simp] theorem State.halt_sp (s : State) : (s.halt).sp = s.sp := rfl
@[simp] theorem State.halt_pc (s : State) : (s.halt).pc = s.pc := rfl
@[simp] theorem State.halt_p (s : State) : (s.halt).p = s.p := rfl
@[simp] theorem State.halt_mem (s : State) : (s.halt).mem = s.mem := rfl
@[simp] theorem State.halt_rs (s : State) : (s.halt).rs = .halted := rfl
@[simp] theorem State.halt_err (s : State) : (s.halt).err = s.err := rfl
@[simp] theorem State.halt_readByte (s : State) (q : Addr) : (s.halt).readByte q = s.readByte q := rfl

@[simp] theorem State.raise_a (s : State) (k : FaultKind) (o : Byte) (at_ : Addr) : (s.raise k o at_).a = s.a := rfl
@[simp] theorem State.raise_x (s : State) (k : FaultKind) (o : Byte) (at_ : Addr) : (s.raise k o at_).x = s.x := rfl
@[simp] theorem State.raise_y (s : State) (k : FaultKind) (o : Byte) (at_ : Addr) : (s.raise k o at_).y = s.y := rfl
@[simp] theorem State.raise_sp (s : State) (k : FaultKind) (o : Byte) (at_ : Addr) : (s.raise k o at_).sp = s.sp := rfl
@[simp] theorem State.raise_pc (s : State) (k : FaultKind) (o : Byte) (at_ : Addr) : (s.raise k o at_).pc = s.pc := rfl
@[simp] theorem State.raise_p (s : State) (k : FaultKind) (o : Byte) (at_ : Addr) : (s.raise k o at_).p = s.p := rfl
@[simp] theorem State.raise_mem (s : State) (k : FaultKind) (o : Byte) (at_ : Addr) : (s.raise k o at_).mem = s.mem := rfl
@[simp] theorem State.raise_rs (s : State) (k : FaultKind) (o : Byte) (at_ : Addr) : (s.raise k o at_).rs = .halted := rfl
@[simp] theorem State.raise_err (s : State) (k : FaultKind) (o : Byte) (at_ : Addr) : (s.raise k o at_).err = some ⟨k, o, at_⟩ := rfl
@[simp] theorem State.raise_readByte (s : State) (k : FaultKind) (o : Byte) (at_ : Addr) (q : Addr) : (s.raise k o at_).readByte q = s.readByte q := rfl

@[simp] theorem State.writeByte_a (s : State) (at_ : Addr) (v : Byte) : (s.writeByte at_ v).a = s.a := rfl
@[simp] theorem State.writeByte_x (s : State) (at_ : Addr) (v : Byte) : (s.writeByte at_ v).x = s.x := rfl
@[simp] theorem State.writeByte_y (s : State) (at_ : Addr) (v : Byte) : (s.writeByte at_ v).y = s.y := rfl
@[simp] theorem State.writeByte_sp (s : State) (at_ : Addr) (v : Byte) : (s.writeByte at_ v).sp = s.sp := rfl
@[simp] theorem State.writeByte_pc (s : State) (at_ : Addr) (v : Byte) : (s.writeByte at_ v).pc = s.pc := rfl
@[simp] theorem State.writeByte_p (s : State) (at_ : Addr) (v : Byte) : (s.writeByte at_ v).p = s.p := rfl
@[simp] theorem State.writeByte_mem (s : State) (at_ : Addr) (v : Byte) : (s.writeByte at_ v).mem = memWrite s.mem at_.toNat v := rfl
@[simp] theorem State.writeByte_rs (s : State) (at_ : Addr) (v : Byte) : (s.writeByte at_ v).rs = s.rs := rfl
@[simp] theorem State.writeByte_err (s : State) (at_ : Addr) (v : Byte) : (s.writeByte at_ v).err = s.err := rfl

@[simp] theorem State.writeWord_a (s : State) (at_ : Addr) (v : Addr) : (s.writeWord at_ v).a = s.a := rfl
@[simp] theorem State.writeWord_x (s : State) (at_ : Addr) (v : Addr) : (s.writeWord at_ v).x = s.x := rfl
@[simp] theorem State.writeWord_y (s : State) (at_ : Addr) (v : Addr) : (s.writeWord at_ v).y = s.y := rfl
@[simp] theorem State.writeWord_sp (s : State) (at_ : Addr) (v : Addr) : (s.writeWord at_ v).sp = s.sp := rfl
@[simp] theorem State.writeWord_pc (s : State) (at_ : Addr) (v : Addr) : (s.writeWord at_ v).pc = s.pc := rfl
@[simp] theorem State.writeWord_p (s : State) (at_ : Addr) (v : Addr) : (s.writeWord at_ v).p = s.p := rfl
@[simp] theorem State.writeWord_mem (s : State) (at_ : Addr) (v : Addr) : (s.writeWord at_ v).mem = memWrite (memWrite s.mem at_.toNat (lowByte v)) (at_ + 1).toNat (highByte v) := rfl
@[simp] theorem State.writeWord_rs (s : State) (at_ : Addr) (v : Addr) : (s.writeWord at_ v).rs = s.rs := rfl
@[simp] theorem State.writeWord_err (s : State) (at_ : Addr) (v : Addr) : (s.writeWord at_ v).err = s.err := rfl

@[simp] theorem State.setFlag_a (s : State) (f : Flag) (b : Bool) : (s.setFlag f b).a = s.a := rfl
@[simp] theorem State.setFlag_x (s : State) (f : Flag) (b : Bool) : (s.setFlag f b).x = s.x := rfl
@[simp] theorem State.setFlag_y (s : State) (f : Flag) (b : Bool) : (s.setFlag f b).y = s.y := rfl
@[simp] theorem State.setFlag_sp (s : State) (f : Flag) (b : Bool) : (s.setFlag f b).sp = s.sp := rfl
@[simp] theorem State.setFlag_pc (s : State) (f : Flag) (b : Bool) : (s.setFlag f b).pc = s.pc := rfl
@[simp] theorem State.setFlag_p (s : State) (f : Flag) (b : Bool) : (s.setFlag f b).p = flagWrite s.p f b := rfl
@[simp] theorem State.setFlag_mem (s : State) (f : Flag) (b : Bool) : (s.setFlag f b).mem = s.mem := rfl
@[simp] theorem State.setFlag_rs (s : State) (f : Flag) (b : Bool) : (s.setFlag f b).rs = s.rs := rfl
@[simp] theorem State.setFlag_err (s : State) (f : Flag) (b : Bool) : (s.setFlag f b).err = s.err := rfl
@[simp] theorem State.setFlag_readByte (s : State) (f : Flag) (b : Bool) (q : Addr) : (s.setFlag f b).readByte q = s.readByte q := rfl

@[simp] theorem State.setZN_a (s : State) (r : Byte) : (s.setZN r).a = s.a := rfl
@[simp] theorem State.setZN_x (s : State) (r : Byte) : (s.setZN r).x = s.x := rfl
@[simp] theorem State.setZN_y (s : State) (r : Byte) : (s.setZN r).y = s.y := rfl
@[simp] theorem State.setZN_sp (s : State) (r : Byte) : (s.setZN r).sp = s.sp := rfl
@[simp] theorem State.setZN_pc (s : State) (r : Byte) : (s.setZN r).pc = s.pc := rfl
@[simp] theorem State.setZN_p (s : State) (r : Byte) : (s.setZN r).p = flagWrite (flagWrite s.p .zero (r == 0x00)) .negative r.msb := rfl
@[simp] theorem State.setZN_mem (s : State) (r : Byte) : (s.setZN r).mem = s.mem := rfl
@[simp] theorem State.setZN_rs (s : State) (r : Byte) : (s.setZN r).rs = s.rs := rfl
@[simp] theorem State.setZN_err (s : State) (r : Byte) : (s.setZN r).err = s.err := rfl
@[simp] theorem State.setZN_readByte (s : State) (r : Byte) (q : Addr) : (s.setZN r).readByte q = s.readByte q := rfl

@[simp] theorem State.compare_a (s : State) (m : Byte) : (s.compare m).a = s.a := rfl
@[simp] theorem State.compare_x (s : State) (m : Byte) : (s.compare m).x = s.x := rfl
@[simp] theorem State.compare_y (s : State) (m : Byte) : (s.compare m).y = s.y := rfl
@[simp] theorem State.compare_sp (s : State) (m : Byte) : (s.compare m).sp = s.sp := rfl
@[simp] theorem State.compare_pc (s : State) (m : Byte) : (s.compare m).pc = s.pc := rfl
@[simp] theorem State.compare_mem (s : State) (m : Byte) : (s.compare m).mem = s.mem := rfl
@[simp] theorem State.compare_rs (s : State) (m : Byte) : (s.compare m).rs = s.rs := rfl
@[simp] theorem State.compare_err (s : State) (m : Byte) : (s.compare m).err = s.err := rfl
@[simp] theorem State.compare_readByte (s : State) (m : Byte) (q : Addr) : (s.compare m).readByte q = s.readByte q := rfl

end Sys2Proof.Machine
end

