-- ==== Sys2Proof/Laws/Flags.lean ====
section
/-! SUPPORT. The laws of the status flags: writing one bit leaves the other seven, and what each flag computation leaves
in every flag. -/

namespace Sys2Proof.Machine

/-- Writing a flag writes that bit and no other (00_scope.md R7). -/
theorem flagWrite_getLsbD (p : Byte) (f g : Flag) (b : Bool) :
    (flagWrite p f b).getLsbD g.bit = if g = f then b else p.getLsbD g.bit := by
  cases f <;> cases g <;> cases b <;> simp [flagWrite, Flag.mask, Flag.bit]

/-- Two status bytes with the same flags are the same byte. -/
theorem status_ext {p q : Byte} (h : ∀ f : Flag, p.getLsbD f.bit = q.getLsbD f.bit) : p = q := by
  apply BitVec.eq_of_getLsbD_eq
  intro k hk
  have : k = 0 ∨ k = 1 ∨ k = 2 ∨ k = 3 ∨ k = 4 ∨ k = 5 ∨ k = 6 ∨ k = 7 := by omega
  rcases this with rfl | rfl | rfl | rfl | rfl | rfl | rfl | rfl
  · exact h .carry
  · exact h .zero
  · exact h .interruptDisable
  · exact h .decimalMode
  · exact h .breakCommand
  · exact h .unused
  · exact h .overflow
  · exact h .negative

theorem State.flag_setFlag (s : State) (f g : Flag) (b : Bool) :
    (s.setFlag f b).flag g = if g = f then b else s.flag g :=
  flagWrite_getLsbD s.p f g b

/-- What `SetZN` leaves in every flag (40_engine.md R86). -/
theorem State.flag_setZN (s : State) (r : Byte) (g : Flag) :
    (s.setZN r).flag g = if g = .negative then r.msb else if g = .zero then r == 0x00 else s.flag g := by
  rw [State.setZN, State.flag_setFlag, State.flag_setFlag]

/-- What a compare leaves in every flag (44_compare.md R120). -/
theorem State.flag_compare (s : State) (m : Byte) (g : Flag) :
    (s.compare m).flag g =
      if g = .negative then (s.a - m).msb else if g = .zero then s.a - m == 0x00
      else if g = .carry then decide (m ≤ s.a) else s.flag g := by
  rw [State.compare, State.flag_setZN, State.flag_setFlag]

end Sys2Proof.Machine
end

