-- ==== Sys2Proof/Laws/Memory.lean ====
section
/-! SUPPORT. The laws of memory: every memory operation keeps the canonical form, a read after a write to the same
address gives the value written, and a write leaves every other address alone. -/

namespace Sys2Proof.Machine

theorem Memory.wf_nil : Memory.wf [] := by decide

theorem Memory.wf_tail {c : Host.Cell} {m : Memory} (h : Memory.wf (c :: m)) : Memory.wf m :=
  ⟨h.1.of_cons, fun d hd => h.2 d (List.mem_cons_of_mem _ hd)⟩

theorem Memory.wf_cons {c : Host.Cell} {m : Memory} (hlt : ∀ d ∈ m, c.1 < d.1) (hc : c.1 < Config.memSize)
    (hv : c.2 ≠ Config.zeroFill) (hm : m.wf) : Memory.wf (c :: m) :=
  ⟨List.pairwise_cons.2 ⟨hlt, hm.1⟩, fun d hd => by
    rcases List.mem_cons.1 hd with rfl | hd
    · exact ⟨hc, hv⟩
    · exact hm.2 d hd⟩

theorem memRead_of_lt {m : Memory} {a : Nat} (h : ∀ d ∈ m, a < d.1) : memRead m a = Config.zeroFill := by
  induction m with
  | nil => rfl
  | cons c m ih =>
    obtain ⟨k, b⟩ := c
    have hk : a < k := h (k, b) List.mem_cons_self
    rw [memRead, if_neg (by omega)]
    exact ih fun d hd => h d (List.mem_cons_of_mem _ hd)

/-- Every entry of a memory after a write is an old entry or the one written. -/
theorem mem_memWrite {m : Memory} {a : Nat} {v : Byte} {d : Host.Cell} (h : d ∈ memWrite m a v) :
    d ∈ m ∨ d = (a, v) := by
  induction m with
  | nil =>
    rw [memWrite] at h
    split at h
    · exact absurd h List.not_mem_nil
    · exact .inr (List.mem_singleton.1 h)
  | cons c m ih =>
    obtain ⟨k, b⟩ := c
    rw [memWrite] at h
    split_ifs at h
    · exact .inl h
    · rcases List.mem_cons.1 h with h | h
      · exact .inr h
      · exact .inl h
    · exact .inl (List.mem_cons_of_mem _ h)
    · rcases List.mem_cons.1 h with h | h
      · exact .inr h
      · exact .inl (List.mem_cons_of_mem _ h)
    · rcases List.mem_cons.1 h with rfl | h
      · exact .inl List.mem_cons_self
      · rcases ih h with h | h
        · exact .inl (List.mem_cons_of_mem _ h)
        · exact .inr h

/-- A write keeps the canonical form. -/
theorem memWrite_wf {m : Memory} {a : Nat} {v : Byte} (hm : m.wf) (ha : a < Config.memSize) :
    (memWrite m a v).wf := by
  induction m with
  | nil =>
    rw [memWrite]
    split
    · exact hm
    · next hv => exact Memory.wf_cons (fun _ h => absurd h List.not_mem_nil) ha hv Memory.wf_nil
  | cons c m ih =>
    obtain ⟨k, b⟩ := c
    have hk := List.pairwise_cons.1 hm.1
    have hc := hm.2 (k, b) List.mem_cons_self
    rw [memWrite]
    split_ifs with h1 hv h2 hv
    · exact hm
    · refine Memory.wf_cons (fun d hd => ?_) ha hv hm
      rcases List.mem_cons.1 hd with rfl | hd
      · exact h1
      · exact h1.trans (hk.1 d hd)
    · exact Memory.wf_tail hm
    · exact Memory.wf_cons (fun d hd => h2 ▸ hk.1 d hd) ha hv (Memory.wf_tail hm)
    · refine Memory.wf_cons (fun d hd => ?_) hc.1 hc.2 (ih (Memory.wf_tail hm))
      rcases mem_memWrite hd with hd | rfl
      · exact hk.1 d hd
      · show k < a
        omega

/-- What a byte reads as after a write. -/
theorem memRead_memWrite {m : Memory} (hm : m.wf) (a c : Nat) (v : Byte) :
    memRead (memWrite m a v) c = if c = a then v else memRead m c := by
  induction m with
  | nil =>
    rw [memWrite]
    by_cases hv : v = Config.zeroFill <;> by_cases hc : c = a
    · simp [hv, hc, memRead]
    · simp [hv, hc, memRead]
    · simp [hv, hc, memRead]
    · simp [hv, hc, memRead, Ne.symm hc]
  | cons d m ih =>
    obtain ⟨k, b⟩ := d
    have hk := (List.pairwise_cons.1 hm.1).1
    have ih := ih (Memory.wf_tail hm)
    have hcons : ∀ (l : Memory), memRead ((a, v) :: l) c = if c = a then v else memRead l c := by
      intro l
      by_cases hc : c = a
      · rw [if_pos hc, memRead, if_pos hc.symm]
      · rw [if_neg hc, memRead, if_neg (Ne.symm hc)]
    rcases Nat.lt_trichotomy a k with h | h | h
    · rw [memWrite, if_pos h]
      by_cases hv : v = Config.zeroFill
      · rw [if_pos hv]
        by_cases hc : c = a
        · rw [if_pos hc, hc, hv]
          refine memRead_of_lt fun d hd => ?_
          rcases List.mem_cons.1 hd with rfl | hd
          · exact h
          · exact h.trans (hk d hd)
        · rw [if_neg hc]
      · rw [if_neg hv, hcons]
    · subst h
      have htail : c ≠ a → memRead ((a, b) :: m) c = memRead m c := fun hc => by
        rw [memRead, if_neg (Ne.symm hc)]
      rw [memWrite, if_neg (Nat.lt_irrefl a), if_pos rfl]
      by_cases hv : v = Config.zeroFill
      · rw [if_pos hv]
        by_cases hc : c = a
        · rw [if_pos hc, hc, hv]
          exact memRead_of_lt hk
        · rw [if_neg hc, htail hc]
      · rw [if_neg hv, hcons]
        by_cases hc : c = a
        · rw [if_pos hc, if_pos hc]
        · rw [if_neg hc, if_neg hc, htail hc]
    · rw [memWrite, if_neg (by omega), if_neg (by omega), memRead, memRead, ih]
      by_cases hc : k = c
      · rw [if_pos hc, if_pos hc, if_neg (by omega)]
      · rw [if_neg hc, if_neg hc]

theorem Addr.toNat_lt_memSize (a : Addr) : a.toNat < Config.memSize := a.isLt

theorem State.writeByte_wf {s : State} (h : s.mem.wf) (a : Addr) (v : Byte) : (s.writeByte a v).mem.wf :=
  memWrite_wf h (Addr.toNat_lt_memSize a)

/-- Read after write, one byte (20_memory.md R32, R33). -/
theorem State.readByte_writeByte {s : State} (h : s.mem.wf) (a c : Addr) (v : Byte) :
    (s.writeByte a v).readByte c = if c = a then v else s.readByte c := by
  rw [State.readByte, State.writeByte_mem, memRead_memWrite h]
  simp [BitVec.toNat_inj, State.readByte]

theorem State.writeWord_wf {s : State} (h : s.mem.wf) (a v : Addr) : (s.writeWord a v).mem.wf :=
  State.writeByte_wf (State.writeByte_wf h a _) _ _

theorem State.readByte_writeWord {s : State} (h : s.mem.wf) (a c v : Addr) :
    (s.writeWord a v).readByte c =
      if c = a + 1 then highByte v else if c = a then lowByte v else s.readByte c := by
  rw [State.writeWord, State.readByte_writeByte (State.writeByte_wf h a _), State.readByte_writeByte h]

theorem State.writeBytes_wf (image : List Byte) (a : Addr) {s : State} (h : s.mem.wf) :
    (State.writeBytes image a s).mem.wf := by
  induction image generalizing a s with
  | nil => exact h
  | cons b rest ih => exact ih (a + 1) (State.writeByte_wf h a b)

/-- Writing bytes changes memory only. -/
theorem State.writeBytes_eq (image : List Byte) (a : Addr) (s : State) :
    State.writeBytes image a s = { s with mem := (State.writeBytes image a s).mem } := by
  induction image generalizing a s with
  | nil => rfl
  | cons b rest ih => rw [State.writeBytes, ih (a + 1) (s.writeByte a b)]; rfl

/-- A byte outside an image reads as before the image was written. -/
theorem State.readByte_writeBytes_outside (image : List Byte) (a : Addr) {s : State} (hw : s.mem.wf) (q : Addr)
    (h : ∀ k, k < image.length → q ≠ a + BitVec.ofNat 16 k) :
    (State.writeBytes image a s).readByte q = s.readByte q := by
  induction image generalizing a s with
  | nil => rfl
  | cons b rest ih =>
    rw [State.writeBytes, ih (a + 1) (State.writeByte_wf hw a b), State.readByte_writeByte hw, if_neg]
    · have := h 0 (by simp)
      simpa using this
    · intro k hk
      have := h (k + 1) (by simpa using hk)
      rw [BitVec.add_assoc]
      rwa [Nat.add_comm, BitVec.ofNat_add] at this

/-- A byte inside an image no longer than memory reads as the image has it. -/
theorem State.readByte_writeBytes_inside (image : List Byte) (a : Addr) {s : State} (hw : s.mem.wf)
    (hl : image.length ≤ 65536) (k : Nat) (h : k < image.length) :
    (State.writeBytes image a s).readByte (a + BitVec.ofNat 16 k) = image[k] := by
  induction image generalizing a s k with
  | nil => simp at h
  | cons b rest ih =>
    have hl' : rest.length ≤ 65535 := by
      rw [List.length_cons] at hl
      omega
    rcases k with _ | k
    · rw [State.writeBytes, State.readByte_writeBytes_outside _ _ (State.writeByte_wf hw a b),
        State.readByte_writeByte hw, if_pos (by simp)]
      · rfl
      · intro j hj he
        have := congrArg BitVec.toNat he
        have h1 : (1 : Addr).toNat = 1 := rfl
        rw [BitVec.toNat_add, BitVec.toNat_add, BitVec.toNat_add, h1] at this
        simp only [BitVec.toNat_ofNat] at this
        have := a.isLt
        omega
    · have := ih (a + 1) (State.writeByte_wf hw a b) (by omega) k (by simpa using h)
      rw [BitVec.add_assoc] at this
      rw [show BitVec.ofNat 16 (k + 1) = 1 + BitVec.ofNat 16 k by rw [Nat.add_comm, BitVec.ofNat_add]; rfl]
      exact this

/-- The first entry reads as its byte. -/
theorem memRead_head {k : Nat} {b : Byte} {m : Memory} : memRead ((k, b) :: m) k = b := by
  rw [memRead, if_pos rfl]

end Sys2Proof.Machine
end

