-- ==== Sys2Proof/Laws/Handlers.lean ====
section
/-! SUPPORT. Everything the effect of a handler can do to a state, and so everything the meaning of an instruction can do
under parameters that meet the contract (40_engine.md R85, R87, R94). -/

namespace Sys2Proof.Machine

/-- Stores change memory only. -/
theorem State.storeAll_eq (l : List (Addr × Byte)) (s : State) :
    State.storeAll l s = { s with mem := (State.storeAll l s).mem } := by
  induction l generalizing s with
  | nil => rfl
  | cons c l ih => rw [State.storeAll, ih]; rfl

theorem State.storeAll_wf (l : List (Addr × Byte)) {s : State} (h : s.mem.wf) : (State.storeAll l s).mem.wf := by
  induction l generalizing s with
  | nil => exact h
  | cons c l ih => exact ih (State.writeByte_wf h c.1 c.2)

/-- Flag writes change P only. -/
theorem State.setOwnFlags_eq (l : List (OwnFlag × Bool)) (s : State) :
    State.setOwnFlags l s = { s with p := (State.setOwnFlags l s).p } := by
  induction l generalizing s with
  | nil => rfl
  | cons c l ih => rw [State.setOwnFlags, ih]; rfl

/-- A handler's own flag writes leave Z and N alone. -/
theorem State.setOwnFlags_zn (l : List (OwnFlag × Bool)) (s : State) :
    (State.setOwnFlags l s).flag .zero = s.flag .zero ∧ (State.setOwnFlags l s).flag .negative = s.flag .negative := by
  induction l generalizing s with
  | nil => exact ⟨rfl, rfl⟩
  | cons c l ih =>
    obtain ⟨f, b⟩ := c
    obtain ⟨h1, h2⟩ := ih (s.setFlag f.flag b)
    rw [State.flag_setFlag] at h1 h2
    cases f <;> exact ⟨h1, h2⟩

/-- An effect changes A, X, Y, P and memory only. -/
theorem State.applyEffect_eq (zn : Bool) (e : Effect) (s : State) :
    s.applyEffect zn e =
      { s with a := e.a, x := e.x, y := e.y, p := (s.applyEffect zn e).p, mem := (s.applyEffect zn e).mem } := by
  have h : ∀ zn : Bool, s.applyEffect zn e = (if zn then
      (State.setOwnFlags e.flags (State.storeAll e.stores { s with a := e.a, x := e.x, y := e.y })).setZN e.result
      else State.setOwnFlags e.flags (State.storeAll e.stores { s with a := e.a, x := e.x, y := e.y })) := fun _ => rfl
  rw [h, State.setOwnFlags_eq, State.storeAll_eq]
  cases zn <;> rfl

/-- Z and N after an effect: those of its result byte where the instruction is documented as affecting them, else those
before. -/
theorem State.applyEffect_zn (zn : Bool) (e : Effect) (s : State) :
    (s.applyEffect zn e).flag .zero = (if zn then e.result == 0x00 else s.flag .zero) ∧
      (s.applyEffect zn e).flag .negative = (if zn then e.result.msb else s.flag .negative) := by
  cases zn
  · simp only [State.applyEffect, Bool.false_eq_true, if_false]
    obtain ⟨h1, h2⟩ := State.setOwnFlags_zn e.flags (State.storeAll e.stores { s with a := e.a, x := e.x, y := e.y })
    rw [h1, h2, State.storeAll_eq]
    exact ⟨rfl, rfl⟩
  · simp only [State.applyEffect, if_true]
    exact ⟨by rw [State.flag_setZN]; rfl, by rw [State.flag_setZN]; rfl⟩

theorem State.applyEffect_wf (zn : Bool) (e : Effect) {s : State} (h : s.mem.wf) : (s.applyEffect zn e).mem.wf := by
  have h' : (State.setOwnFlags e.flags (State.storeAll e.stores { s with a := e.a, x := e.x, y := e.y })).mem.wf := by
    rw [State.setOwnFlags_eq]
    exact State.storeAll_wf _ h
  cases zn
  · exact h'
  · exact h'

/-- Every handler is the application of an effect. -/
theorem Behaviour.onOperand_eq {b : Behaviour} {op : Option Operand} {f : State → State}
    (h : b.onOperand op = some f) : ∀ s, ∃ e, f s = s.applyEffect b.affectsZN e := by
  obtain ⟨zn, body⟩ := b
  rcases body with effect | effect
  · cases h; exact fun s => ⟨_, rfl⟩
  · rcases op with _ | op
    · cases h
    · cases h; exact fun s => ⟨_, rfl⟩

/-- Everything a meaning can do: halt, where there is no handler; else an effect, with PC past the instruction. -/
theorem RunsAs.next {handler : Option Behaviour} {width : Nat} {op : Option Operand}
    {run : State → Host.Outcome State Fault Refusal} (h : RunsAs handler width op run) (s : State) :
    (handler = none ∧ run s = .next (s.advancePc 1).halt) ∨
      ∃ b e, handler = some b ∧
        run s = .next (((s.advancePc 1).applyEffect b.affectsZN e).advancePc width) := by
  rcases handler with _ | b
  · exact .inl ⟨rfl, h s⟩
  · obtain ⟨f, hf, hr⟩ := h
    obtain ⟨e, he⟩ := Behaviour.onOperand_eq hf (s.advancePc 1)
    exact .inr ⟨b, e, rfl, by rw [hr, runHandler, he]⟩

end Sys2Proof.Machine
end

