-- ==== Sys2Proof/Laws/Exec.lean ====
section
/-! SUPPORT. What the shared operations behind the meanings and the step can do, said once. -/

namespace Sys2Proof.Machine

/-- No operand value depends on PC: the immediate byte is already fetched. -/
@[simp] theorem Operand.value_advancePc (op : Operand) (s : State) (n : Nat) :
    op.value (s.advancePc n) = op.value s := by
  cases op <;> rfl

/-- `SetZN` changes P only. -/
theorem State.setZN_eq (s : State) (r : Byte) : s.setZN r = { s with p := (s.setZN r).p } := rfl

/-- A compare changes P only. -/
theorem State.compare_eq (s : State) (m : Byte) : s.compare m = { s with p := (s.compare m).p } := rfl

/-- Everything a load form does. -/
theorem runHandler_load (width : Nat) (op : Operand) (s : State) :
    runHandler width (loadHandler op) s =
      .next { s with a := op.value s, p := (s.setZN (op.value s)).p,
                     pc := s.pc + BitVec.ofNat 16 1 + BitVec.ofNat 16 width } := by
  cases op <;> rfl

/-- Everything a compare form does. -/
theorem runHandler_compare (width : Nat) (op : Operand) (s : State) :
    runHandler width (compareHandler op) s =
      .next { s with p := (s.compare (op.value s)).p, pc := s.pc + BitVec.ofNat 16 1 + BitVec.ofNat 16 width } := by
  cases op <;> rfl

/-- Every instruction is one of five shapes: the operand and the width of a load or compare form, or one of the three
implied instructions, with the meaning each has. -/
theorem exec_cases (i : Instr) (s : State) :
    (∃ op, instrOperand i = some op ∧ i.mnemonic = .lda ∧ exec i s = runHandler i.width (loadHandler op) s) ∨
    (∃ op, instrOperand i = some op ∧ i.mnemonic = .cmp ∧ exec i s = runHandler i.width (compareHandler op) s) ∨
    (i = .tax ∧ exec i s = runHandler 0 transferHandler s) ∨
    (i = .inx ∧ exec i s = runHandler 0 incrementHandler s) ∨
    (i = .brk ∧ exec i s = .next (s.advancePc 1).halt) := by
  cases i
  case brk => exact .inr (.inr (.inr (.inr ⟨rfl, rfl⟩)))
  case tax => exact .inr (.inr (.inl ⟨rfl, rfl⟩))
  case inx => exact .inr (.inr (.inr (.inl ⟨rfl, rfl⟩)))
  case cmpImmediate nn => exact .inr (.inl ⟨_, rfl, rfl, rfl⟩)
  case cmpZeroPage nn => exact .inr (.inl ⟨_, rfl, rfl, rfl⟩)
  case cmpZeroPageX nn => exact .inr (.inl ⟨_, rfl, rfl, rfl⟩)
  case cmpAbsolute nn => exact .inr (.inl ⟨_, rfl, rfl, rfl⟩)
  case cmpAbsoluteX nn => exact .inr (.inl ⟨_, rfl, rfl, rfl⟩)
  case cmpAbsoluteY nn => exact .inr (.inl ⟨_, rfl, rfl, rfl⟩)
  case cmpIndirectX nn => exact .inr (.inl ⟨_, rfl, rfl, rfl⟩)
  case cmpIndirectY nn => exact .inr (.inl ⟨_, rfl, rfl, rfl⟩)
  all_goals exact .inl ⟨_, rfl, rfl, rfl⟩

/-- Everything a step can do under any parameters: nothing (Halted), one of the two overruns, an unknown opcode, the
halt, or the instruction the byte's descriptor makes. -/
theorem paramStep_cases {M I : Type} (pr : Params M I) (s : State) :
    (s.rs = .halted ∧ paramStep pr s = .next s) ∨
    (s.rs = .running ∧ fetchOverruns pr.topWrap s.pc = true ∧
      paramStep pr s = .next (s.raise .addressOverrun (s.readByte s.pc) s.pc)) ∨
    (s.rs = .running ∧ fetchOverruns pr.topWrap s.pc = false ∧ lookup pr.table (s.readByte s.pc) = none ∧
      paramStep pr s = .next ((s.advancePc 1).raise .unknownOpcode (s.readByte s.pc) s.pc)) ∨
    ∃ d i rest, s.rs = .running ∧ fetchOverruns pr.topWrap s.pc = false ∧
      lookup pr.table (s.readByte s.pc) = some d ∧ d.handler.makes i ∧
      assemble (s.readByte s.pc) d.handler [s.readByte (s.pc + 1), s.readByte (s.pc + 2)] = .ok (i, rest) ∧
      decodeWith pr.table s.fetchWindow = .ok (i, rest) ∧
      ((successorOverruns pr.topWrap s.pc d.width = true ∧
          paramStep pr s = .next ((s.advancePc 1).raise .addressOverrun (s.readByte s.pc) s.pc)) ∨
        (successorOverruns pr.topWrap s.pc d.width = false ∧ s.readByte s.pc = pr.haltOpcode ∧
          paramStep pr s = .next (s.advancePc 1).halt) ∨
        (successorOverruns pr.topWrap s.pc d.width = false ∧ s.readByte s.pc ≠ pr.haltOpcode ∧
          paramStep pr s = pr.exec i s)) := by
  rcases hrs : s.rs with _ | _
  · exact .inl ⟨rfl, by simp [paramStep, hrs]⟩
  rcases hf : fetchOverruns pr.topWrap s.pc with _ | _
  · rcases decodeWith_three pr.table (s.readByte s.pc) (s.readByte (s.pc + 1)) (s.readByte (s.pc + 2)) with
      ⟨hl, hd⟩ | ⟨d, i, rest, hl, hm, ha, hd⟩
    · refine .inr (.inr (.inl ⟨rfl, rfl, hl, ?_⟩))
      simp only [paramStep, hrs, hf, State.fetchWindow, hd, Bool.false_eq_true, if_false]
    · refine .inr (.inr (.inr ⟨d, i, rest, rfl, rfl, hl, hm, ha, hd, ?_⟩))
      have hp : paramStep pr s =
          if successorOverruns pr.topWrap s.pc d.width then
            .next ((s.advancePc 1).raise .addressOverrun (s.readByte s.pc) s.pc)
          else if s.readByte s.pc = pr.haltOpcode then .next (s.advancePc 1).halt else pr.exec i s := by
        simp only [paramStep, hrs, hf, State.fetchWindow, hd, operandWidth_of_lookup hl, Bool.false_eq_true, if_false]
      rcases ho : successorOverruns pr.topWrap s.pc d.width with _ | _
      · by_cases hh : s.readByte s.pc = pr.haltOpcode
        · exact .inr (.inl ⟨rfl, hh, by rw [hp, ho, if_neg Bool.false_ne_true, if_pos hh]⟩)
        · exact .inr (.inr ⟨rfl, hh, by rw [hp, ho, if_neg Bool.false_ne_true, if_neg hh]⟩)
      · exact .inl ⟨rfl, by rw [hp, ho, if_pos rfl]⟩
  · exact .inr (.inl ⟨rfl, rfl, by simp [paramStep, hrs, hf]⟩)

/-- Only `BRK` has the halt opcode's byte in the spec's table. -/
theorem Instr.opcode_eq_halt {i : Instr} : i.opcode = Config.haltOpcode ↔ i = .brk := by
  cases i <;> simp [Instr.opcode, Config.haltOpcode]

/-- Everything a step can do under the spec's table and halt opcode, whose halt is `BRK`'s meaning: nothing (Halted),
one of the two overruns, an unknown opcode, or the decoded instruction. -/
theorem engineStep_cases (tw : TopWrap) (s : State) :
    (s.rs = .halted ∧ engineStep tw s = .next s) ∨
    (s.rs = .running ∧ fetchOverruns tw s.pc = true ∧
      engineStep tw s = .next (s.raise .addressOverrun (s.readByte s.pc) s.pc)) ∨
    (s.rs = .running ∧ fetchOverruns tw s.pc = false ∧ (∃ e, decode s.fetchWindow = .error e) ∧
      engineStep tw s = .next ((s.advancePc 1).raise .unknownOpcode (s.readByte s.pc) s.pc)) ∨
    (∃ i rest, s.rs = .running ∧ fetchOverruns tw s.pc = false ∧ decode s.fetchWindow = .ok (i, rest) ∧
      successorOverruns tw s.pc i.width = true ∧
      engineStep tw s = .next ((s.advancePc 1).raise .addressOverrun (s.readByte s.pc) s.pc)) ∨
    (∃ i rest, s.rs = .running ∧ fetchOverruns tw s.pc = false ∧ decode s.fetchWindow = .ok (i, rest) ∧
      successorOverruns tw s.pc i.width = false ∧ engineStep tw s = exec i s) := by
  rcases paramStep_cases (Params.spec tw) s with h | h | ⟨hr, hf, hl, h⟩ | ⟨d, i, rest, hr, hf, hl, hm, _, hd, h⟩
  · exact .inl h
  · exact .inr (.inl h)
  · refine .inr (.inr (.inl ⟨hr, hf, ⟨.unknownOpcode (s.readByte s.pc), ?_⟩, h⟩))
    show decodeWith isetRows s.fetchWindow = _
    rw [State.fetchWindow, decodeWith]
    simp only [show lookup isetRows (s.readByte s.pc) = none from hl]
  · have hw : i.opcode = s.readByte s.pc ∧ i.width = d.width :=
      ⟨(isetRows_makes (lookup_mem hl) hm).1, (isetRows_makes (lookup_mem hl) hm).2.1⟩
    rw [← hw.2] at h
    rcases h with ⟨ho, h⟩ | ⟨ho, hh, h⟩ | ⟨ho, _, h⟩
    · exact .inr (.inr (.inr (.inl ⟨i, rest, hr, hf, hd, ho, h⟩)))
    · have hb : i = .brk := Instr.opcode_eq_halt.1 (hw.1.trans hh)
      exact .inr (.inr (.inr (.inr ⟨i, rest, hr, hf, hd, ho, by subst hb; exact h⟩)))
    · exact .inr (.inr (.inr (.inr ⟨i, rest, hr, hf, hd, ho, h⟩)))

/-- A Halted engine does nothing. -/
theorem engineStep_halted {tw : TopWrap} {s : State} (hr : s.rs = .halted) : engineStep tw s = .next s := by
  simp [engineStep, paramStep, hr]

/-- The overrun of the fetch advance, from any state that meets it. -/
theorem engineStep_fetchOverrun {tw : TopWrap} {s : State} (hr : s.rs = .running)
    (hf : fetchOverruns tw s.pc = true) :
    engineStep tw s = .next (s.raise .addressOverrun (s.readByte s.pc) s.pc) := by
  rcases engineStep_cases tw s with ⟨h, _⟩ | ⟨_, _, h⟩ | ⟨_, h, _⟩ | ⟨_, _, _, h, _⟩ | ⟨_, _, _, h, _⟩ <;> simp_all

/-- The unknown opcode. -/
theorem engineStep_decodeError {tw : TopWrap} {s : State} {e : DecodeError} (hr : s.rs = .running)
    (hf : fetchOverruns tw s.pc = false) (hd : decode s.fetchWindow = .error e) :
    engineStep tw s = .next ((s.advancePc 1).raise .unknownOpcode (s.readByte s.pc) s.pc) := by
  rcases engineStep_cases tw s with ⟨h, _⟩ | ⟨_, h, _⟩ | ⟨_, _, _, h⟩ | ⟨_, _, _, _, h, _⟩ | ⟨_, _, _, _, h, _⟩ <;>
    simp_all

/-- The overrun of the successor address. -/
theorem engineStep_successorOverrun {tw : TopWrap} {s : State} {i : Instr} {rest : List Byte} (hr : s.rs = .running)
    (hf : fetchOverruns tw s.pc = false) (hd : decode s.fetchWindow = .ok (i, rest))
    (ho : successorOverruns tw s.pc i.width = true) :
    engineStep tw s = .next ((s.advancePc 1).raise .addressOverrun (s.readByte s.pc) s.pc) := by
  rcases engineStep_cases tw s with ⟨h, _⟩ | ⟨_, h, _⟩ | ⟨_, _, ⟨_, h⟩, _⟩ | ⟨_, _, _, _, _, _, h⟩ |
    ⟨_, _, _, _, h, h', _⟩ <;> simp_all

/-- The decoded instruction. -/
theorem engineStep_executes {tw : TopWrap} {s : State} {i : Instr} {rest : List Byte} (hr : s.rs = .running)
    (hf : fetchOverruns tw s.pc = false) (hd : decode s.fetchWindow = .ok (i, rest))
    (ho : successorOverruns tw s.pc i.width = false) : engineStep tw s = exec i s := by
  rcases engineStep_cases tw s with ⟨h, _⟩ | ⟨_, h, _⟩ | ⟨_, _, ⟨_, h⟩, _⟩ | ⟨_, _, _, _, h, h', _⟩ |
    ⟨_, _, _, _, h', _, h⟩ <;> simp_all

/-- The state after a step that answers one. -/
theorem stepState_of_next {tw : TopWrap} {s t : State} (h : engineStep tw s = .next t) : stepState tw s = t := by
  rw [stepState, paramState, show paramStep (Params.spec tw) s = .next t from h]

/-- A host step is the step with its outcome. -/
theorem hostStep_eq (tw : TopWrap) (s : State) : hostStep tw s = (stepOutcome s (stepState tw s), stepState tw s) := rfl

/-- A run of one step more, by the outcome of the first. -/
theorem runFor_succ (tw : TopWrap) (n : Nat) (s : State) :
    runFor tw (n + 1) s =
      match hostStep tw s with
      | (.continues, t) => runFor tw n t
      | (.halt, t) => some (.halt, t)
      | (.fault f, t) => some (.fault f, t)
      | (.alreadyHalted, t) => some (.alreadyHalted, t) := rfl

/-- Every instruction of a table that meets the contract answers a next state. -/
theorem Params.exec_next {M I : Type} (pr : Params M I) {r : Byte × DescriptorOf M I} (hr : r ∈ pr.table) {i : I}
    (hi : r.2.handler.makes i) (s : State) : ∃ t, pr.exec i s = .next t := by
  rcases ((pr.contract r hr).2.2 i hi).next s with ⟨_, h⟩ | ⟨_, _, _, h⟩
  · exact ⟨_, h⟩
  · exact ⟨_, h⟩

/-- Every step answers a next state, under any parameters. -/
theorem paramStep_next {M I : Type} (pr : Params M I) (s : State) : paramStep pr s = .next (paramState pr s) := by
  have h : ∃ t, paramStep pr s = .next t := by
    rcases paramStep_cases pr s with ⟨_, h⟩ | ⟨_, _, h⟩ | ⟨_, _, _, h⟩ | ⟨d, i, rest, _, _, hl, hm, _, _, h⟩
    · exact ⟨_, h⟩
    · exact ⟨_, h⟩
    · exact ⟨_, h⟩
    · rcases h with ⟨_, h⟩ | ⟨_, _, h⟩ | ⟨_, _, h⟩
      · exact ⟨_, h⟩
      · exact ⟨_, h⟩
      · rw [h]; exact pr.exec_next (lookup_mem hl) hm s
  obtain ⟨t, h⟩ := h
  rw [paramState, h]

theorem fetchOverruns_eq_true {tw : TopWrap} {a : Addr} : fetchOverruns tw a = true ↔ tw = .fault ∧ a = 0xFFFF := by
  cases tw <;> simp [fetchOverruns]

theorem fetchOverruns_eq_false {tw : TopWrap} {a : Addr} :
    fetchOverruns tw a = false ↔ (tw = .fault → a ≠ 0xFFFF) := by
  cases tw <;> simp [fetchOverruns]

theorem successorOverruns_eq_true {tw : TopWrap} {a : Addr} {w : Nat} :
    successorOverruns tw a w = true ↔ tw = .fault ∧ a.toNat + 1 + w > 0xFFFF := by
  cases tw <;> simp [successorOverruns]

theorem successorOverruns_eq_false {tw : TopWrap} {a : Addr} {w : Nat} :
    successorOverruns tw a w = false ↔ (tw = .fault → a.toNat + 1 + w ≤ 0xFFFF) := by
  cases tw <;> simp [successorOverruns]

end Sys2Proof.Machine
end

