-- ==== Sys2Proof/Laws/PerInstr.lean ====
section
/-! SUPPORT. What holds of every instruction as syntax, one lemma per constructor: the family EncodeShape says that an
instruction is well-formed, that its opcode byte has the descriptor of its mnemonic, mode and width, and that its
encoding is one byte and the operand bytes of that width (30_encoding.md R55, R56, R61). -/

namespace Sys2Proof.Laws.EncodeShape

def Statement (i : Instr) : Prop :=
  i.wellFormed = true ∧ (encode i).length = 1 + i.width ∧
    ∃ d, iset i.opcode = some d ∧ d.wellFormed = true ∧ d.mnemonic = i.mnemonic ∧ d.mode = i.mode ∧ d.width = i.width

theorem brk : Statement .brk := ⟨rfl, rfl, _, rfl, by decide, rfl, rfl, rfl⟩

theorem ldaImmediate (nn : Byte) : Statement (.ldaImmediate nn) := ⟨rfl, rfl, _, rfl, by decide, rfl, rfl, rfl⟩

theorem ldaZeroPage (nn : Byte) : Statement (.ldaZeroPage nn) := ⟨rfl, rfl, _, rfl, by decide, rfl, rfl, rfl⟩

theorem ldaZeroPageX (nn : Byte) : Statement (.ldaZeroPageX nn) := ⟨rfl, rfl, _, rfl, by decide, rfl, rfl, rfl⟩

theorem ldaAbsolute (nnnn : Addr) : Statement (.ldaAbsolute nnnn) := ⟨rfl, rfl, _, rfl, by decide, rfl, rfl, rfl⟩

theorem ldaAbsoluteX (nnnn : Addr) : Statement (.ldaAbsoluteX nnnn) := ⟨rfl, rfl, _, rfl, by decide, rfl, rfl, rfl⟩

theorem ldaAbsoluteY (nnnn : Addr) : Statement (.ldaAbsoluteY nnnn) := ⟨rfl, rfl, _, rfl, by decide, rfl, rfl, rfl⟩

theorem ldaIndirectX (nn : Byte) : Statement (.ldaIndirectX nn) := ⟨rfl, rfl, _, rfl, by decide, rfl, rfl, rfl⟩

theorem ldaIndirectY (nn : Byte) : Statement (.ldaIndirectY nn) := ⟨rfl, rfl, _, rfl, by decide, rfl, rfl, rfl⟩

theorem tax : Statement .tax := ⟨rfl, rfl, _, rfl, by decide, rfl, rfl, rfl⟩

theorem inx : Statement .inx := ⟨rfl, rfl, _, rfl, by decide, rfl, rfl, rfl⟩

theorem cmpImmediate (nn : Byte) : Statement (.cmpImmediate nn) := ⟨rfl, rfl, _, rfl, by decide, rfl, rfl, rfl⟩

theorem cmpZeroPage (nn : Byte) : Statement (.cmpZeroPage nn) := ⟨rfl, rfl, _, rfl, by decide, rfl, rfl, rfl⟩

theorem cmpZeroPageX (nn : Byte) : Statement (.cmpZeroPageX nn) := ⟨rfl, rfl, _, rfl, by decide, rfl, rfl, rfl⟩

theorem cmpAbsolute (nnnn : Addr) : Statement (.cmpAbsolute nnnn) := ⟨rfl, rfl, _, rfl, by decide, rfl, rfl, rfl⟩

theorem cmpAbsoluteX (nnnn : Addr) : Statement (.cmpAbsoluteX nnnn) := ⟨rfl, rfl, _, rfl, by decide, rfl, rfl, rfl⟩

theorem cmpAbsoluteY (nnnn : Addr) : Statement (.cmpAbsoluteY nnnn) := ⟨rfl, rfl, _, rfl, by decide, rfl, rfl, rfl⟩

theorem cmpIndirectX (nn : Byte) : Statement (.cmpIndirectX nn) := ⟨rfl, rfl, _, rfl, by decide, rfl, rfl, rfl⟩

theorem cmpIndirectY (nn : Byte) : Statement (.cmpIndirectY nn) := ⟨rfl, rfl, _, rfl, by decide, rfl, rfl, rfl⟩

end Sys2Proof.Laws.EncodeShape
end

