-- ==== Sys2Proof/Laws/Word.lean ====
section
/-! SUPPORT. The byte-order and extension helpers as arithmetic on natural numbers (00_scope.md R7, 20_memory.md R37). -/

namespace Sys2Proof

theorem zext16_eq (b : Byte) : zext16 b = BitVec.ofNat 16 b.toNat := by
  apply BitVec.eq_of_toNat_eq
  simp [zext16]

theorem word16_toNat (lo hi : Byte) : (word16 lo hi).toNat = hi.toNat * 256 + lo.toNat := by
  have h := BitVec.toNat_append hi lo
  have hl := lo.isLt
  rw [Nat.shiftLeft_eq, Nat.mul_comm, ← Nat.two_pow_add_eq_or_of_lt hl] at h
  simpa [word16, Nat.mul_comm] using h

theorem word16_eq (lo hi : Byte) : word16 lo hi = BitVec.ofNat 16 (hi.toNat * 256 + lo.toNat) := by
  apply BitVec.eq_of_toNat_eq
  have h1 := lo.isLt
  have h2 := hi.isLt
  rw [word16_toNat, BitVec.toNat_ofNat, Nat.mod_eq_of_lt (by omega)]

/-- The two bytes of a 16-bit value put together again are the value. -/
theorem word16_lowByte_highByte (w : Addr) : word16 (lowByte w) (highByte w) = w := by
  apply BitVec.eq_of_toNat_eq
  have h := w.isLt
  rw [word16_toNat]
  simp only [lowByte, highByte, BitVec.extractLsb'_toNat, Nat.shiftRight_eq_div_pow]
  omega

theorem lowByte_word16 (lo hi : Byte) : lowByte (word16 lo hi) = lo := by
  apply BitVec.eq_of_toNat_eq
  have h := lo.isLt
  simp only [lowByte, BitVec.extractLsb'_toNat, word16_toNat, Nat.shiftRight_eq_div_pow]
  omega

theorem highByte_word16 (lo hi : Byte) : highByte (word16 lo hi) = hi := by
  apply BitVec.eq_of_toNat_eq
  have h1 := lo.isLt
  have h2 := hi.isLt
  simp only [highByte, BitVec.extractLsb'_toNat, word16_toNat, Nat.shiftRight_eq_div_pow]
  omega

namespace Machine

/-- A zero-page index sum is taken mod 256 (30_encoding.md R72). -/
theorem zeroPageIndexed_eq (nn index : Byte) :
    zeroPageIndexed nn index = BitVec.ofNat 16 ((nn.toNat + index.toNat) % 256) := by
  rw [zeroPageIndexed, zext16_eq, BitVec.toNat_add]

/-- An absolute index sum is taken mod 65536 (30_encoding.md R72). -/
theorem absoluteIndexed_eq (base : Addr) (index : Byte) :
    absoluteIndexed base index = BitVec.ofNat 16 ((base.toNat + index.toNat) % 65536) := by
  apply BitVec.eq_of_toNat_eq
  have h := index.isLt
  simp [absoluteIndexed, zext16_eq]

/-- Both bytes of a zero-page pointer are in the zero page (30_encoding.md R69, R70). -/
theorem zeroPagePointer_eq (p : Byte) (s : State) :
    zeroPagePointer p s = BitVec.ofNat 16 (zeroPageNumber p.toNat s) := by
  have h := p.isLt
  rw [zeroPagePointer, word16_eq, zext16_eq, zext16_eq, BitVec.toNat_add, zeroPageNumber, zeroPageByte, zeroPageByte,
    Nat.mod_eq_of_lt (a := p.toNat) h]
  rfl

theorem zeroPageNumber_lt (n : Nat) (s : State) : zeroPageNumber n s < 65536 := by
  have h1 := (zeroPageByte n s).isLt
  have h2 := (zeroPageByte (n + 1) s).isLt
  rw [zeroPageNumber]
  omega

end Machine

end Sys2Proof
end

