-- ==== Sys2Proof/Tests/Slice0.lean ====
section
/-! SUPPORT. The model's own tests. Expected results are those of 95_test_vectors.md and of the worked examples in the
rules; each test names its vector. The theorems named witness_ meet the hypotheses of a statement. -/

open Sys2Proof Sys2Proof.Machine

namespace Sys2Proof.Tests

/-! ### Helpers -/

/-- The host's byte writes. -/
def pokes : List (Addr × Byte) → State → State
  | [], s => s
  | (q, v) :: rest, s => pokes rest (s.writeByte q v)

/-- The standard start of 95_test_vectors.md: construct, load, reset, then the host's writes. -/
def start (image : List Byte) (a x y p : Byte) (writes : List (Addr × Byte)) : State :=
  match load image State.powerOn with
  | .ok s => pokes writes { resetOp s with a := a, x := x, y := y, p := p }
  | .error _ => State.powerOn

/-- A Running engine with the bytes at `pc` and on. -/
def placed (pc : Addr) (bytes : List Byte) : State := { State.writeBytes bytes pc State.reset with pc := pc }

/-- The engine of a vector T1 to T6: the reset vector points at 0xFFFE. -/
def topStart (writes : List (Addr × Byte)) : State :=
  resetOp (pokes ((0xFFFC, 0xFE) :: (0xFFFD, 0xFF) :: writes) State.powerOn)

/-- A, X, Y, P and PC after a step that goes on. -/
def regsAfter (o : Host.Outcome State Fault Refusal) : Option (Byte × Byte × Byte × Byte × Addr) :=
  match o with
  | .next t => if t.rs = .running ∧ t.err = none then some (t.a, t.x, t.y, t.p, t.pc) else none
  | .fault _ => none
  | .refused _ => none

/-- The outcome of a host step, with A, X, P, PC and the report after it. -/
def seen (r : RunOutcome × State) : RunOutcome × Byte × Byte × Byte × Addr × Option FaultReport :=
  (r.1, r.2.a, r.2.x, r.2.p, r.2.pc, r.2.err)

/-! ### Well-formedness: the table passes, and each check refuses a descriptor that fails it alone -/

theorem test_table_wellFormed : tableWellFormed isetRows = true := by decide

/-- A width that does not agree with the tag (30_encoding.md R61). -/
theorem test_illFormed_width :
    (⟨.lda, .absolute, 1, .op16 .ldaAbsolute⟩ : Descriptor).widthAgrees = false ∧
      (⟨.lda, .absolute, 1, .op16 .ldaAbsolute⟩ : Descriptor).wellFormed = false := by decide

/-- A handler of another mnemonic. -/
theorem test_illFormed_handler :
    (⟨.lda, .immediate, 1, .op8 .cmpImmediate⟩ : Descriptor).handlerAgrees = false ∧
      (⟨.lda, .immediate, 1, .op8 .cmpImmediate⟩ : Descriptor).wellFormed = false := by decide

/-- The malformed descriptor of 60_exceptions.md R142: a load without an address. -/
theorem test_illFormed_addressing :
    (⟨.lda, .noneAddressing, 0, .implied .tax⟩ : Descriptor).addressable = false ∧
      (⟨.lda, .noneAddressing, 0, .implied .tax⟩ : Descriptor).wellFormed = false := by decide

/-- Two descriptors for one byte (40_engine.md R94). -/
theorem test_illFormed_duplicate :
    tableWellFormed [(0xAA, ⟨.tax, .noneAddressing, 0, .implied .tax⟩),
      (0xAA, ⟨.inx, .noneAddressing, 0, .implied .inx⟩)] = false := by decide

/-- Every instruction is well-formed (30_encoding.md R60). -/
theorem test_instr_wellFormed (i : Instr) : i.wellFormed = true := by cases i <;> rfl

/-! ### Decoding: bytes written out from 30_encoding.md R56, one or more for every constructor -/

theorem test_decode_implied :
    decode [0x00] = .ok (.brk, []) ∧ decode [0xAA, 0x01] = .ok (.tax, [0x01]) ∧ decode [0xE8] = .ok (.inx, []) := by
  decide

theorem test_decode_load :
    decode [0xA9, 0x80] = .ok (.ldaImmediate 0x80, []) ∧ decode [0xA5, 0x10] = .ok (.ldaZeroPage 0x10, []) ∧
    decode [0xB5, 0x80] = .ok (.ldaZeroPageX 0x80, []) ∧ decode [0xAD, 0x00, 0x02] = .ok (.ldaAbsolute 0x0200, []) ∧
    decode [0xBD, 0xF0, 0xFF] = .ok (.ldaAbsoluteX 0xFFF0, []) ∧
    decode [0xB9, 0x00, 0x20] = .ok (.ldaAbsoluteY 0x2000, []) ∧ decode [0xA1, 0x20] = .ok (.ldaIndirectX 0x20, []) ∧
    decode [0xB1, 0x86] = .ok (.ldaIndirectY 0x86, []) := by
  decide

theorem test_decode_compare :
    decode [0xC9, 0x42] = .ok (.cmpImmediate 0x42, []) ∧ decode [0xC5, 0x10] = .ok (.cmpZeroPage 0x10, []) ∧
    decode [0xD5, 0x80] = .ok (.cmpZeroPageX 0x80, []) ∧ decode [0xCD, 0x00, 0x02] = .ok (.cmpAbsolute 0x0200, []) ∧
    decode [0xDD, 0xF0, 0xFF] = .ok (.cmpAbsoluteX 0xFFF0, []) ∧
    decode [0xD9, 0x00, 0x20] = .ok (.cmpAbsoluteY 0x2000, []) ∧ decode [0xC1, 0xFE] = .ok (.cmpIndirectX 0xFE, []) ∧
    decode [0xD1, 0xFF] = .ok (.cmpIndirectY 0xFF, []) := by
  decide

theorem test_decode_refuses :
    decode [] = .error .noBytes ∧ decode [0xEA, 0x00] = .error (.unknownOpcode 0xEA) ∧
    decode [0xAC, 0x00, 0x00] = .error (.unknownOpcode 0xAC) ∧ decode [0xA9] = .error (.truncated 0xA9) ∧
    decode [0xAD, 0x34] = .error (.truncated 0xAD) := by
  decide

/-- 30_encoding.md R55: the low byte of a 16-bit operand comes first. -/
theorem test_encode :
    encode (.ldaAbsolute 0x1234) = [0xAD, 0x34, 0x12] ∧ encode (.cmpIndirectY 0xFF) = [0xD1, 0xFF] ∧
      encode .inx = [0xE8] := by
  decide

theorem test_decodeTableWord :
    decodeTableWord 8 0xE8 = some .inx ∧ decodeTableWord 16 0x55A9 = some (.ldaImmediate 0x55) ∧
    decodeTableWord 24 0x1234AD = some (.ldaAbsolute 0x1234) ∧ decodeTableWord 8 0xA9 = some (.ldaImmediate 0x00) ∧
    decodeTableWord 8 0xEA = none := by
  decide

theorem test_withFetchWord :
    regsAfter (step (State.reset.withFetchWord 8 0xE8)) = some (0x00, 0x01, 0x00, 0x00, 0x0001) ∧
    regsAfter (step (State.reset.withFetchWord 16 0x80A9)) = some (0x80, 0x00, 0x00, 0x80, 0x0002) := by
  decide

/-! ### The load family (95_test_vectors.md 2.2, 2.3) -/

/-- Section 2.3, row 80 from P = FF; 41_load.md R101. -/
theorem test_lda_immediate :
    regsAfter (step (start [0xA9, 0x80] 0x33 0 0 0xFF [])) = some (0x80, 0, 0, 0xFD, 0x8002) := by decide

/-- V2b. -/
theorem test_lda_zeroPage :
    regsAfter (step (start [0xA5, 0xFF] 0 0 0 0 [(0x00FF, 0x80)])) = some (0x80, 0, 0, 0x80, 0x8002) := by decide

/-- V3b: 80 + FF wraps to 007F. -/
theorem test_lda_zeroPageX :
    regsAfter (step (start [0xB5, 0x80] 0 0xFF 0 0 [(0x007F, 0x9A), (0x017F, 0x11)])) =
      some (0x9A, 0xFF, 0, 0x80, 0x8002) := by decide

/-- V3c: FF + 01 wraps to 0000. -/
theorem test_lda_zeroPageX_top :
    regsAfter (step (start [0xB5, 0xFF] 0 0x01 0 0 [(0x0100, 0x77)])) = some (0x00, 0x01, 0, 0x02, 0x8002) := by decide

/-- V4. -/
theorem test_lda_absolute :
    regsAfter (step (start [0xAD, 0x34, 0x12] 0 0 0 0 [(0x1234, 0x56)])) = some (0x56, 0, 0, 0x00, 0x8003) := by decide

/-- V4c: FFFF is a byte like any other. -/
theorem test_lda_absolute_top :
    regsAfter (step (start [0xAD, 0xFF, 0xFF] 0 0 0 0 [(0xFFFF, 0xEE)])) = some (0xEE, 0, 0, 0x80, 0x8003) := by decide

/-- V5b: FFFF + 02 wraps to 0001. -/
theorem test_lda_absoluteX :
    regsAfter (step (start [0xBD, 0xFF, 0xFF] 0 0x02 0 0 [(0x0001, 0x81)])) =
      some (0x81, 0x02, 0, 0x80, 0x8003) := by decide

/-- V6b: FF80 + FF wraps to 007F. -/
theorem test_lda_absoluteY :
    regsAfter (step (start [0xB9, 0x80, 0xFF] 0 0 0xFF 0 [(0x007F, 0x21)])) =
      some (0x21, 0, 0xFF, 0x00, 0x8003) := by decide

/-- V7b: the pointer at 00FF takes its high byte from 0000. -/
theorem test_lda_indirectX :
    regsAfter (step (start [0xA1, 0xFE] 0 0x01 0 0
      [(0x00FF, 0x34), (0x0000, 0x12), (0x0100, 0x99), (0x1234, 0x7F)])) = some (0x7F, 0x01, 0, 0x00, 0x8002) := by
  decide

/-- V7c: F0 + 20 wraps to 10. -/
theorem test_lda_indirectX_wrap :
    regsAfter (step (start [0xA1, 0xF0] 0 0x20 0 0 [(0x0010, 0x78), (0x0011, 0x56), (0x5678, 0x01)])) =
      some (0x01, 0x20, 0, 0x00, 0x8002) := by decide

/-- V8b: as V7b, for Indirect,Y. -/
theorem test_lda_indirectY :
    regsAfter (step (start [0xB1, 0xFF] 0 0 0x10 0
      [(0x00FF, 0x34), (0x0000, 0x12), (0x0100, 0x55), (0x1244, 0x99)])) = some (0x99, 0, 0x10, 0x80, 0x8002) := by
  decide

/-- V8d, with V8's base: X plays no part. -/
theorem test_lda_indirectY_x :
    regsAfter (step (start [0xB1, 0x40] 0 0x77 0x05 0 [(0x0040, 0x00), (0x0041, 0x30), (0x3005, 0xCD)])) =
      some (0xCD, 0x77, 0x05, 0x80, 0x8002) := by decide

/-! ### Transfer, increment, halt (95_test_vectors.md 2.4, 2.6) -/

/-- Section 2.4, A = 80 from P = 82. -/
theorem test_tax : regsAfter (step (start [0xAA] 0x80 0x55 0 0x82 [])) = some (0x80, 0x80, 0, 0x80, 0x8001) := by
  decide

/-- Section 2.4, A = 00 from P = FF. -/
theorem test_tax_zero : regsAfter (step (start [0xAA] 0x00 0x55 0 0xFF [])) = some (0x00, 0x00, 0, 0x7F, 0x8001) := by
  decide

/-- Section 2.4: FF wraps to 00, and C stays set. -/
theorem test_inx_wraps : regsAfter (step (start [0xE8] 0 0xFF 0 0xFF [])) = some (0, 0x00, 0, 0x7F, 0x8001) := by decide

/-- Section 2.4: 7F to 80 sets N and leaves V. -/
theorem test_inx_sign : regsAfter (step (start [0xE8] 0 0x7F 0 0x00 [])) = some (0, 0x80, 0, 0x80, 0x8001) := by decide

/-- H3: no flag is set or cleared. -/
theorem test_brk :
    seen (hostStep .fault (start [0x00] 0 0 0 0xFF [])) = (.halt, 0, 0, 0xFF, 0x8001, none) := by decide

/-- H2. -/
theorem test_brk_again :
    let t := (hostStep .fault (start [0x00] 0 0 0 0 [])).2
    hostStep .fault t = (.alreadyHalted, t) := by decide

/-! ### The compare family (95_test_vectors.md 2.5) -/

/-- The row A = 80, mm = 01 from P = FF: the comparison is unsigned and V stays. -/
theorem test_cmp_immediate :
    regsAfter (step (start [0xC9, 0x01] 0x80 0 0 0xFF [])) = some (0x80, 0, 0, 0x7D, 0x8002) := by decide

/-- The row A = 00, mm = FF from P = FF: C, Z and N all cleared. -/
theorem test_cmp_immediate_below :
    regsAfter (step (start [0xC9, 0xFF] 0x00 0 0 0xFF [])) = some (0x00, 0, 0, 0x7C, 0x8002) := by decide

/-- K2. -/
theorem test_cmp_zeroPage :
    regsAfter (step (start [0xC5, 0x10] 0x40 0 0 0 [(0x0010, 0x41)])) = some (0x40, 0, 0, 0x80, 0x8002) := by decide

/-- K3. -/
theorem test_cmp_zeroPageX :
    regsAfter (step (start [0xD5, 0x80] 0x40 0xFF 0 0 [(0x007F, 0x3F)])) = some (0x40, 0xFF, 0, 0x01, 0x8002) := by
  decide

/-- K4. -/
theorem test_cmp_absolute :
    regsAfter (step (start [0xCD, 0x34, 0x12] 0x40 0 0 0 [(0x1234, 0xC0)])) = some (0x40, 0, 0, 0x80, 0x8003) := by
  decide

/-- K5. -/
theorem test_cmp_absoluteX :
    regsAfter (step (start [0xDD, 0xFF, 0xFF] 0x40 0x02 0 0 [(0x0001, 0x40)])) =
      some (0x40, 0x02, 0, 0x03, 0x8003) := by decide

/-- K6. -/
theorem test_cmp_absoluteY :
    regsAfter (step (start [0xD9, 0x00, 0x20] 0x40 0 0xFF 0 [])) = some (0x40, 0, 0xFF, 0x01, 0x8003) := by decide

/-- K7. -/
theorem test_cmp_indirectX :
    regsAfter (step (start [0xC1, 0xFE] 0x40 0x01 0 0 [(0x00FF, 0x34), (0x0000, 0x12), (0x1234, 0x7F)])) =
      some (0x40, 0x01, 0, 0x80, 0x8002) := by decide

/-- K8. -/
theorem test_cmp_indirectY :
    regsAfter (step (start [0xD1, 0xFF] 0x40 0 0x10 0 [(0x00FF, 0x34), (0x0000, 0x12), (0x1244, 0x10)])) =
      some (0x40, 0, 0x10, 0x01, 0x8002) := by decide

/-! ### Faults and the top of the address space (95_test_vectors.md 2.7) -/

/-- X1. -/
theorem test_fault_unknownOpcode :
    seen (hostStep .fault (start [0xEA] 0 0 0 0 [])) =
      (.fault ⟨.unknownOpcode, 0xEA, 0x8000⟩, 0, 0, 0, 0x8001, some ⟨.unknownOpcode, 0xEA, 0x8000⟩) := by decide

/-- T1, its second step from PC = FFFF: PC is not advanced. -/
theorem test_fault_top :
    seen (hostStep .fault { topStart [(0xFFFF, 0xAA)] with pc := 0xFFFF, x := 0x01 }) =
      (.fault ⟨.addressOverrun, 0xAA, 0xFFFF⟩, 0, 0x01, 0, 0xFFFF, some ⟨.addressOverrun, 0xAA, 0xFFFF⟩) := by decide

/-- T2. -/
theorem test_fault_successor :
    seen (hostStep .fault (topStart [(0xFFFE, 0xA9), (0xFFFF, 0x55)])) =
      (.fault ⟨.addressOverrun, 0xA9, 0xFFFE⟩, 0, 0, 0, 0xFFFF, some ⟨.addressOverrun, 0xA9, 0xFFFE⟩) := by decide

/-- T3: the table look-up comes before the width check. -/
theorem test_fault_priority :
    (hostStep .fault (topStart [(0xFFFE, 0xEA)])).1 = .fault ⟨.unknownOpcode, 0xEA, 0xFFFE⟩ := by decide

/-- T4: the check at FFFF comes before the table look-up. -/
theorem test_fault_priority_top :
    (hostStep .fault { topStart [(0xFFFF, 0xEA)] with pc := 0xFFFF }).1 = .fault ⟨.addressOverrun, 0xEA, 0xFFFF⟩ := by
  decide

/-- T6w: the operand wraps from FFFF to 0000. -/
theorem test_wrap :
    seen (hostStep .wrap (topStart [(0xFFFE, 0xAD), (0xFFFF, 0x34), (0x0000, 0x12), (0x1234, 0x77)])) =
      (.continues, 0x77, 0, 0, 0x0001, none) := by decide

/-! ### The open parameters (00_scope.md R6) -/

/-- The four bytes the source's own examples exercise (92_eei_decisions.md D1), as parameters. -/
def fourRows : Params Mnemonic Instr :=
  Params.over .fault 0x00 (isetRows.filter (fun r => r.1 ∈ ([0x00, 0xA9, 0xAA, 0xE8] : List Byte))) (by decide)
    fun r hr => ⟨r, (List.mem_filter.1 hr).1, rfl⟩

/-- The spec's table with the halt opcode 0x02, which has no row in it; BRK's row stays at 0x00. -/
def haltElsewhere : Params Mnemonic Instr :=
  Params.over .fault 0x02 isetRows (by decide) fun r hr => ⟨r, hr, rfl⟩

/-- Two descriptors of the spec under other bytes, the halt at 0x02. -/
def movedRows : TableOf Mnemonic Instr :=
  [(0x02, ⟨.brk, .noneAddressing, 0, .implied .brk⟩), (0x10, ⟨.lda, .absolute, 2, .op16 .ldaAbsolute⟩)]

theorem movedRows_rows : ∀ r ∈ movedRows, ∃ q ∈ isetRows, q.2 = r.2 := by
  intro r hr
  simp only [movedRows, List.mem_cons, List.not_mem_nil, or_false] at hr
  rcases hr with rfl | rfl
  · exact ⟨(0x00, ⟨.brk, .noneAddressing, 0, .implied .brk⟩), by simp [isetRows, isetImplied], rfl⟩
  · exact ⟨(0xAD, ⟨.lda, .absolute, 2, .op16 .ldaAbsolute⟩), by simp [isetRows, isetImplied, isetLoad], rfl⟩

/-- They as parameters. -/
def moved : Params Mnemonic Instr := Params.over .fault 0x02 movedRows (by decide) movedRows_rows

/-- A no-operation: it is documented as affecting no flag. -/
def nop : Behaviour := ⟨false, .implied View.keep⟩

/-- A store of A, which this spec has not. -/
def storeA : Behaviour := ⟨false, .addressed fun v ea _ => { v.keep with stores := [(ea, v.a)] }⟩

/-- An extended table (40_engine.md R94) of two instructions that are not this spec's: the no-operation at 0xEA, and the
store at 0x8D with a 16-bit address. -/
def extended : Params Bool (Option Addr) :=
  { topWrap := .fault, haltOpcode := 0x00
    table := [(0xEA, ⟨false, .noneAddressing, 0, .implied none⟩), (0x8D, ⟨true, .absolute, 2, .op16 some⟩)]
    operand := fun i => i.map .absolute
    handler := fun m => some (if m then storeA else nop)
    exec := fun i => match i with
      | none => runHandler 0 fun s => s.applyEffect false s.view.keep
      | some q => runHandler 2 fun s => s.applyEffect false { s.view.keep with stores := [(q, s.a)] }
    oneDescriptor := by decide
    oneHalt := fun _ _ h => by cases h
    contract := by
      intro r hr
      simp only [List.mem_cons, List.not_mem_nil, or_false] at hr
      rcases hr with rfl | rfl
      · exact ⟨rfl, rfl, fun i hi => by cases hi; exact ⟨_, rfl, fun _ => rfl⟩⟩
      · exact ⟨rfl, fun _ => rfl, fun i hi => by obtain ⟨q, rfl⟩ := hi; exact ⟨_, rfl, fun _ => rfl⟩⟩ }

/-- With the four rows, A9 still loads and A5 is an unknown opcode. -/
theorem test_params_four_rows :
    regsAfter (paramStep fourRows (placed 0x8000 [0xA9, 0x80])) = some (0x80, 0, 0, 0x80, 0x8002) ∧
      seen (paramHostStep fourRows (placed 0x8000 [0xA5, 0x10])) =
        (.fault ⟨.unknownOpcode, 0xA5, 0x8000⟩, 0, 0, 0, 0x8001, some ⟨.unknownOpcode, 0xA5, 0x8000⟩) :=
  ⟨by decide, by decide⟩

/-- With `HALT_OPCODE` 0x02 and the rows moved, 02 halts and the zero fill is an unknown opcode. -/
theorem test_params_halt_opcode :
    (paramHostStep moved (placed 0x8000 [0x02])).1 = .halt ∧
      (paramHostStep moved (placed 0x8000 [])).1 = .fault ⟨.unknownOpcode, 0x00, 0x8000⟩ ∧
      regsAfter (paramStep moved (placed 0x8000 [0x10, 0x01, 0x80])) = some (0x01, 0, 0, 0x00, 0x8003) := by decide

/-- Log entry 12: with `HALT_OPCODE` 0x02 and the spec's table, BRK at 00 halts, in the step and in the loop body; and
02, which has no row, is an unknown opcode, as the look-up comes first (40_engine.md R81 point 3). -/
theorem test_params_halt_elsewhere :
    (paramHostStep haltElsewhere (placed 0x8000 [])).1 = .halt ∧
      (referenceStep .fault 0x02 isetRows handlerOf (placed 0x8000 [])).1 = .halt ∧
      (paramHostStep haltElsewhere (placed 0x8000 [0x02])).1 = .fault ⟨.unknownOpcode, 0x02, 0x8000⟩ := by decide

/-- The added instructions: one moves PC alone, the other stores; and their table has no other byte. -/
theorem test_params_extended :
    regsAfter (paramStep extended (placed 0x8000 [0xEA])) = some (0, 0, 0, 0, 0x8001) ∧
      (paramState extended { placed 0x8000 [0x8D, 0x34, 0x12] with a := 0x55 }).readByte 0x1234 = 0x55 ∧
      (paramHostStep extended (placed 0x8000 [0xE8])).1 = .fault ⟨.unknownOpcode, 0xE8, 0x8000⟩ := by decide

/-- The contract refuses a handler that writes Z and N of an instruction documented as leaving them alone. -/
theorem test_contract_undocumented :
    ¬ DescriptorContract (fun _ => none) (fun _ => some nop) (fun _ => runHandler 0 fun s => s.setZN 0x00)
      (⟨(), .noneAddressing, 0, .implied ()⟩ : DescriptorOf Unit Unit) := by
  intro h
  obtain ⟨f, hf, hr⟩ := h.2.2 () rfl
  cases hf
  exact absurd (hr State.reset) (by simp [runHandler, nop, View.keep, State.view, State.reset, State.applyEffect,
    State.setOwnFlags, State.storeAll, State.setZN, State.setFlag, State.setP, flagWrite, Flag.mask, State.advancePc])

/-- It refuses an operand that is not the tag's, and a handler that needs an address under NoneAddressing. -/
theorem test_contract_mode :
    ¬ operandsAgree instrOperand (⟨.lda, .zeroPageX, 1, .op8 .ldaZeroPage⟩ : Descriptor) ∧
      ¬ RunsAs (handlerOf .lda) 0 none (exec .tax) :=
  ⟨fun h => absurd (h 0x00) (by decide), fun ⟨_, h, _⟩ => by cases h⟩

/-- A malformed descriptor, a load without an address, raises the fault of 60_exceptions.md R142 in the loop body. -/
theorem test_reference_malformed :
    seen (referenceStep .fault 0x00 [(0xA9, (⟨.lda, .noneAddressing, 0, .implied .tax⟩ : Descriptor))] handlerOf
        (placed 0x8000 [0xA9])) =
      (.fault ⟨.invalidAddressingMode, 0xA9, 0x8000⟩, 0, 0, 0, 0x8001,
        some ⟨.invalidAddressingMode, 0xA9, 0x8000⟩) := by decide

/-- A load in the mode no row uses, 30_encoding.md R65's example: operand F0 and Y = 20 read 0010. -/
theorem test_reference_zeroPageY :
    seen (referenceStep .fault 0x00 [(0xB7, (⟨.lda, .zeroPageY, 1, .op8 .ldaZeroPage⟩ : Descriptor))] handlerOf
      (start [0xB7, 0xF0] 0 0 0x20 0 [(0x0010, 0x42)])) = (.continues, 0x42, 0, 0, 0x8002, none) := by decide

/-! ### Load, reset, accesses (95_test_vectors.md 2.8) -/

/-- L6. -/
theorem test_reset_vector : (resetOp (pokes [(0xFFFC, 0x34), (0xFFFD, 0x12)] State.powerOn)).pc = 0x1234 := by decide

/-- H5. -/
theorem test_reset_without_load :
    seen (hostStep .fault (resetOp State.powerOn)) = (.halt, 0, 0, 0, 0x0001, none) := by decide

/-- L7: the fetch sees the byte the host wrote. -/
theorem test_fetch_coherent :
    regsAfter (step (start [0xE8, 0x00] 0 0 0 0 [(0x8000, 0xAA)])) = some (0, 0x00, 0, 0x02, 0x8001) := by decide

/-- A write of the zero fill leaves no entry. -/
theorem test_memory_canonical :
    memWrite (memWrite (memWrite [] 5 0x11) 3 0x22) 5 0x00 = [(3, 0x22)] ∧ Memory.wf [(3, 0x22), (5, 0x11)] ∧
      ¬ Memory.wf [(5, 0x11), (3, 0x22)] ∧ ¬ Memory.wf [(3, 0x00)] ∧ ¬ Memory.wf [(0x10000, 0x01)] := by decide

/-- The accesses of V8b's instruction: opcode, operand, pointer low, pointer high, data. -/
theorem test_accesses :
    stepAccesses .fault (start [0xB1, 0xFF] 0 0 0x10 0 [(0x00FF, 0x34), (0x0000, 0x12)]) =
      [0x8000, 0x8001, 0x00FF, 0x0000, 0x1244] := by decide

/-! ### Witnesses: the hypotheses of the statements are met, clause by clause, at boundary values -/

theorem witness_EncodeOfDecode : decode [0xAD, 0xFF, 0xFF, 0x00] = .ok (.ldaAbsolute 0xFFFF, [0x00]) := by decide

theorem witness_NineteenOpcodes : (0xE8 : Byte) ∈ tableOpcodes ∧ (0xEA : Byte) ∉ tableOpcodes := by decide

theorem witness_TaxResult :
    (placed 0x8000 [0xAA]).rs = .running ∧ (placed 0x8000 [0xAA]).readByte (placed 0x8000 [0xAA]).pc = 0xAA ∧
    (placed 0xFFFF [0xAA]).rs = .running ∧ (placed 0xFFFF [0xAA]).readByte (placed 0xFFFF [0xAA]).pc = 0xAA ∧
    (placed 0xFFFF [0xAA]).pc = 0xFFFF := by decide

theorem witness_InxResult :
    (placed 0x8000 [0xE8]).rs = .running ∧ (placed 0x8000 [0xE8]).readByte (placed 0x8000 [0xE8]).pc = 0xE8 ∧
    (placed 0xFFFF [0xE8]).rs = .running ∧ (placed 0xFFFF [0xE8]).readByte (placed 0xFFFF [0xE8]).pc = 0xE8 ∧
    (placed 0xFFFF [0xE8]).pc = 0xFFFF := by decide

theorem placed_inv (pc : Addr) (bytes : List Byte) : (placed pc bytes).Inv := by
  refine ⟨State.writeBytes_wf bytes pc (by decide), fun f hf => ?_⟩
  rw [placed, State.writeBytes_eq] at hf
  exact absurd hf (by simp [State.reset])

theorem witness_BrkResult_fault :
    (placed 0xFFFE []).Inv ∧ (placed 0xFFFE []).rs = .running ∧
    (placed 0xFFFE []).readByte (placed 0xFFFE []).pc = 0x00 ∧ (placed 0xFFFE []).pc ≠ 0xFFFF :=
  ⟨placed_inv _ _, by decide⟩

theorem witness_BrkResult_top :
    (placed 0xFFFF []).Inv ∧ (placed 0xFFFF []).rs = .running ∧
    (placed 0xFFFF []).readByte (placed 0xFFFF []).pc = 0x00 ∧ (placed 0xFFFF []).pc = 0xFFFF :=
  ⟨placed_inv _ _, by decide⟩

/-- The three relations of A = 0x80 with an operand one below, equal and one above. -/
theorem witness_CompareRelations :
    (Instr.cmpImmediate 0x7F).mnemonic = .cmp ∧
    instrOperand (.cmpImmediate 0x7F) = some (.immediate 0x7F) ∧
    ({ State.reset with a := 0x80 }).a.toNat > ((Operand.immediate 0x7F).value State.reset).toNat ∧
    ({ State.reset with a := 0x80 }).a.toNat = ((Operand.immediate 0x80).value State.reset).toNat ∧
    ({ State.reset with a := 0x80 }).a.toNat < ((Operand.immediate 0x81).value State.reset).toNat := by decide

/-- The bounds of the three outcomes of `SetZN`. -/
theorem witness_ZeroNegativePolicy :
    (0x00 : Byte).toNat = 0 ∧ (1 ≤ (0x01 : Byte).toNat ∧ (0x01 : Byte).toNat ≤ 0x7F) ∧
    (1 ≤ (0x7F : Byte).toNat ∧ (0x7F : Byte).toNat ≤ 0x7F) ∧ 0x80 ≤ (0x80 : Byte).toNat ∧
    0x80 ≤ (0xFF : Byte).toNat := by decide

theorem witness_ResultFlagsDescribeResult :
    (Instr.ldaImmediate 0).mnemonic = .lda ∧ Instr.tax.mnemonic = .tax ∧ Instr.inx.mnemonic = .inx ∧
    (Instr.cmpZeroPage 0).mnemonic = .cmp ∧ instrOperand (.cmpZeroPage 0) = some (.zeroPage 0) ∧
    (Instr.cmpZeroPage 0).mnemonic ≠ .brk := by decide

theorem witness_InstructionFrame :
    Instr.brk.mnemonic = .brk ∧ Instr.brk.mnemonic ≠ .lda ∧ Instr.brk.mnemonic ≠ .tax ∧ Instr.brk.mnemonic ≠ .inx ∧
    Instr.tax.mnemonic ≠ .brk ∧ Instr.tax.mnemonic ≠ .cmp ∧ (2 ≠ 0 ∧ 2 ≠ 1 ∧ 2 ≠ 7) := by decide

/-- The highest address an instruction of one byte, and of three, runs from. -/
theorem witness_StepRunsDecodedInstruction :
    (placed 0xFFFE [0xE8]).rs = .running ∧
    decode [(placed 0xFFFE [0xE8]).readByte 0xFFFE, (placed 0xFFFE [0xE8]).readByte (0xFFFE + 1),
      (placed 0xFFFE [0xE8]).readByte (0xFFFE + 2)] = .ok (.inx, [0x00, 0x00]) ∧
    (placed 0xFFFE [0xE8]).pc.toNat + 1 + Instr.inx.width ≤ 0xFFFF ∧
    decode (placed 0xFFFC [0xAD, 0x34, 0x12]).fetchWindow = .ok (.ldaAbsolute 0x1234, []) ∧
    (placed 0xFFFC [0xAD, 0x34, 0x12]).pc.toNat + 1 + (Instr.ldaAbsolute 0x1234).width ≤ 0xFFFF := by decide

theorem witness_HaltedEngineDoesNothing :
    State.powerOn.rs = .halted ∧ hostWrite .fault (.pc 0x8000) State.powerOn = .ok { State.powerOn with pc := 0x8000 } ∧
      load [] State.powerOn = .ok { State.powerOn with mem := [(0xFFFD, 0x80)] } :=
  ⟨rfl, rfl, rfl⟩

theorem witness_UnknownOpcodeFaults :
    (placed 0xFFFE [0xEA]).rs = .running ∧
    (placed 0xFFFE [0xEA]).readByte (placed 0xFFFE [0xEA]).pc ∉ tableOpcodes ∧ (placed 0xFFFE [0xEA]).pc ≠ 0xFFFF ∧
    (placed 0xFFFF [0xEA]).rs = .running ∧
    (placed 0xFFFF [0xEA]).readByte (placed 0xFFFF [0xEA]).pc ∉ tableOpcodes := by decide

/-- The lowest address each width overruns from. -/
theorem witness_AddressOverrunFaults :
    ((placed 0xFFFF [0xAA]).rs = .running ∧ (placed 0xFFFF [0xAA]).pc = 0xFFFF) ∧
    ((placed 0xFFFE [0xA9]).rs = .running ∧ (placed 0xFFFE [0xA9]).pc ≠ 0xFFFF ∧
      (iset ((placed 0xFFFE [0xA9]).readByte (placed 0xFFFE [0xA9]).pc)).isSome = true ∧
      (iset ((placed 0xFFFE [0xA9]).readByte (placed 0xFFFE [0xA9]).pc)).map (·.width) = some 1 ∧
      (placed 0xFFFE [0xA9]).pc.toNat + 1 + 1 > 0xFFFF) ∧
    ((placed 0xFFFD [0xAD]).pc ≠ 0xFFFF ∧
      (iset ((placed 0xFFFD [0xAD]).readByte (placed 0xFFFD [0xAD]).pc)).map (·.width) = some 2 ∧
      (placed 0xFFFD [0xAD]).pc.toNat + 1 + 2 > 0xFFFF) := by decide

/-- A Halted engine that holds the report of an overrun: a step under `wrap` leaves it there. -/
theorem witness_AddressOverrunFaults_wrap :
    engineStep .wrap ((placed 0xFFFF [0xAA]).raise .addressOverrun 0xAA 0xFFFF) =
        .next ((placed 0xFFFF [0xAA]).raise .addressOverrun 0xAA 0xFFFF) ∧
      ((placed 0xFFFF [0xAA]).raise .addressOverrun 0xAA 0xFFFF).err = some ⟨.addressOverrun, 0xAA, 0xFFFF⟩ :=
  ⟨rfl, rfl⟩

/-- The unknown opcode and both overruns. -/
theorem witness_FaultsArePrecise :
    ((placed 0xFFFE [0xEA]).Inv ∧ (placed 0xFFFE [0xA9]).Inv ∧ (placed 0xFFFF [0xAA]).Inv) ∧
    (hostStep .fault (placed 0xFFFE [0xEA])).1 = .fault ⟨.unknownOpcode, 0xEA, 0xFFFE⟩ ∧
    (hostStep .fault (placed 0xFFFE [0xA9])).1 = .fault ⟨.addressOverrun, 0xA9, 0xFFFE⟩ ∧
    (hostStep .fault (placed 0xFFFF [0xAA])).1 = .fault ⟨.addressOverrun, 0xAA, 0xFFFF⟩ :=
  ⟨⟨placed_inv _ _, placed_inv _ _, placed_inv _ _⟩, by decide⟩

/-- A state no run reaches: a Halted engine that holds that report. -/
theorem witness_InvalidAddressingModeUnreachable :
    engineStep .fault (State.reset.raise .invalidAddressingMode 0xA9 0x0000) =
        .next (State.reset.raise .invalidAddressingMode 0xA9 0x0000) ∧
      (State.reset.raise .invalidAddressingMode 0xA9 0x0000).err = some ⟨.invalidAddressingMode, 0xA9, 0x0000⟩ :=
  ⟨rfl, rfl⟩

/-- Both sides of the equivalence occur. -/
theorem witness_EngineStopsExactlyWhen :
    (placed 0xFFFD [0xA9]).rs = .running ∧ (stepState .fault (placed 0xFFFD [0xA9])).rs = .running ∧
    (placed 0xFFFE [0xA9]).rs = .running ∧ (stepState .fault (placed 0xFFFE [0xA9])).rs = .halted := by decide

/-- The three lengths, and the halt. -/
theorem witness_CompletedStepAdvancesPc :
    (hostStep .fault (placed 0xFFFE [0xAA])).1 = .continues ∧ (hostStep .fault (placed 0xFFFE [])).1 = .halt ∧
    (hostStep .fault (placed 0xFFFD [0xD1])).1 = .continues ∧ (hostStep .wrap (placed 0xFFFF [0xD9])).1 = .continues ∧
    (placed 0xFFFE [0xAA]).readByte (placed 0xFFFE [0xAA]).pc ∈ ([0x00, 0xAA, 0xE8] : List Byte) ∧
    (placed 0xFFFD [0xD1]).readByte (placed 0xFFFD [0xD1]).pc ∈
      ([0xA9, 0xA5, 0xB5, 0xA1, 0xB1, 0xC9, 0xC5, 0xD5, 0xC1, 0xD1] : List Byte) ∧
    (placed 0xFFFF [0xD9]).readByte (placed 0xFFFF [0xD9]).pc ∈
      ([0xAD, 0xBD, 0xB9, 0xCD, 0xDD, 0xD9] : List Byte) := by decide

theorem witness_ResolverAbsoluteModes :
    ((0x1234 = ((placed 0xFFFE [0x34, 0x12]).readByte ((placed 0xFFFE [0x34, 0x12]).pc + 1)).toNat * 256 +
        ((placed 0xFFFE [0x34, 0x12]).readByte (placed 0xFFFE [0x34, 0x12]).pc).toNat) ∧
      (placed 0xFFFE [0x34, 0x12]).pc ≠ 0xFFFF) ∧
    ((0x34 = ((placed 0xFFFF [0x34]).readByte ((placed 0xFFFF [0x34]).pc + 1)).toNat * 256 +
        ((placed 0xFFFF [0x34]).readByte (placed 0xFFFF [0x34]).pc).toNat) ∧
      (placed 0xFFFF [0x34]).pc = 0xFFFF) := by decide

/-- Parameters of each kind can be built, and states meet the two premises on reports. -/
theorem witness_StepIsRunLoopBody :
    (moved.haltOpcode = 0x02 ∧ ∀ r ∈ moved.table, moved.handler r.2.mnemonic = none → r.1 = moved.haltOpcode) ∧
    (∀ r ∈ extended.table, extended.handler r.2.mnemonic = none → r.1 = extended.haltOpcode) ∧
    (placed 0x8000 [0x10, 0x34, 0x12]).reportsOnlyHalted ∧ (placed 0xFFFE [0xA9]).Inv := by
  refine ⟨⟨rfl, fun r hr h => ?_⟩, fun _ _ h => (nomatch (h : some _ = none)), fun f hf => ((placed_inv _ _).2 f hf).1, placed_inv _ _⟩
  simp only [moved, Params.over, movedRows, List.mem_cons, List.not_mem_nil, or_false] at hr
  rcases hr with rfl | rfl
  · rfl
  · cases h

/-- Each clause: at 0xFFFF; no descriptor; a successor just above the top and just below; the halt; a mnemonic without
a handler at another byte; the three handlers; both kinds of documentation. -/
theorem witness_StepOverAnyTable :
    (extended.topWrap = .fault ∧ (placed 0xFFFF [0xEA]).pc = 0xFFFF ∧ (placed 0xFFFF [0xEA]).rs = .running) ∧
    ((placed 0xFFFE [0xE8]).pc ≠ 0xFFFF ∧ lookup extended.table 0xE8 = none ∧
      (placed 0xFFFE [0xE8]).readByte (placed 0xFFFE [0xE8]).pc = 0xE8) ∧
    ((placed 0xFFFD [0x10]).readByte (placed 0xFFFD [0x10]).pc = 0x10 ∧
      lookup moved.table 0x10 = some ⟨.lda, .absolute, 2, .op16 .ldaAbsolute⟩ ∧
      (placed 0xFFFD [0x10]).pc.toNat + 1 + 2 > 0xFFFF ∧ (placed 0xFFFC [0x10]).pc.toNat + 1 + 2 ≤ 0xFFFF ∧
      (0x10 : Byte) ≠ moved.haltOpcode) ∧
    ((placed 0xFFFE [0x02]).readByte (placed 0xFFFE [0x02]).pc = moved.haltOpcode ∧
      lookup moved.table 0x02 = some ⟨.brk, .noneAddressing, 0, .implied .brk⟩ ∧
      (placed 0xFFFE [0x02]).pc.toNat + 1 + 0 ≤ 0xFFFF) ∧
    ((0x00 : Byte) ≠ haltElsewhere.haltOpcode ∧ haltElsewhere.handler .brk = none ∧
      lookup haltElsewhere.table 0x00 = some ⟨.brk, .noneAddressing, 0, .implied .brk⟩) ∧
    (lookup fourRows.table 0xAA = some ⟨.tax, .noneAddressing, 0, .implied .tax⟩ ∧
      lookup fourRows.table 0xA9 = some ⟨.lda, .immediate, 1, .op8 .ldaImmediate⟩) ∧
    ((handlerOf .lda).map Behaviour.affectsZN = some true ∧
      (extended.handler true).map Behaviour.affectsZN = some false) :=
  ⟨by decide, ⟨by decide, rfl, by decide⟩, ⟨by decide, rfl, by decide⟩, ⟨by decide, rfl, by decide⟩,
    ⟨by decide, rfl, rfl⟩, ⟨rfl, rfl⟩, rfl, rfl⟩

theorem witness_StepKeepsInvariant :
    (placed 0x8000 [0xE8]).Inv ∧ (placed 0xFFFE [0xA9]).Inv ∧
    engineStep .fault (placed 0x8000 [0xE8]) = .next { placed 0x8000 [0xE8] with x := 0x01, pc := 0x8001 } ∧
    engineStep .fault (placed 0xFFFE [0xA9]) =
      .next { placed 0xFFFE [0xA9] with pc := 0xFFFF, rs := .halted,
                                        err := some ⟨.addressOverrun, 0xA9, 0xFFFE⟩ } :=
  ⟨placed_inv _ _, placed_inv _ _, rfl, rfl⟩

theorem witness_HostKeepsCanonicalMemory :
    State.reset.mem.wf ∧
    load [0xE8] State.reset = .ok { State.reset with mem := [(0x8000, 0xE8), (0xFFFD, 0x80)] } ∧
    hostWrite .wrap (.word 0xFFFF 0x1234) State.reset =
      .ok { State.reset with mem := [(0x0000, 0x12), (0xFFFF, 0x34)] } := by decide

theorem witness_EveryRunEnds :
    (placed 0xFFFE [0xE8]).rs = .running ∧ (stepState topWrap (placed 0xFFFE [0xE8])).rs = .running ∧
    step (placed 0xFFFE [0xE8]) = .next (stepState topWrap (placed 0xFFFE [0xE8])) :=
  ⟨by decide, by decide, rfl⟩

/-- Both ends: a halt, and a fault at the second step. -/
theorem witness_RunEndsByHaltOrFault :
    (State.reset.Inv ∧ (placed 0xFFFE [0xE8]).Inv) ∧ State.reset.rs = .running ∧
    runFor .wrap 1 State.reset = some (.halt, { State.reset with pc := 0x0001, rs := .halted }) ∧
    (placed 0xFFFE [0xE8]).rs = .running ∧
    runFor .fault 2 (placed 0xFFFE [0xE8]) =
      some (.fault ⟨.addressOverrun, 0x00, 0xFFFF⟩,
        { placed 0xFFFE [0xE8] with x := 0x01, pc := 0xFFFF, rs := .halted,
                                    err := some ⟨.addressOverrun, 0x00, 0xFFFF⟩ }) :=
  ⟨⟨⟨by decide, fun f hf => by simp [State.reset] at hf⟩, placed_inv _ _⟩, by decide⟩

/-- A run of two steps that ends, and the bounds of the bits kept. -/
theorem witness_RunKeepsMemoryYSpInertFlags :
    (runFor .fault 2 (placed 0x8000 [0xE8])).isSome = true ∧ (2 ≤ 2 ∧ 2 ≤ 6) ∧ (2 ≤ 6 ∧ 6 ≤ 6) := by decide

theorem witness_StackPointerIsInert :
    hostWrite .fault (.a 0x01) State.reset = .ok { State.reset with a := 0x01 } ∧
    load [] State.reset = .ok { State.reset with mem := [(0xFFFD, 0x80)] } := by decide

/-- A memory that differs from the state's at 0x0100, which the step does not read. -/
theorem witness_StepReadsOnlyItsAccesses :
    ∀ q ∈ stepAccesses .fault (placed 0x8000 [0xA5, 0x10]),
      memRead [(0x0100, 0x77), (0x8000, 0xA5), (0x8001, 0x10)] q.toNat = (placed 0x8000 [0xA5, 0x10]).readByte q := by
  have h : stepAccesses .fault (placed 0x8000 [0xA5, 0x10]) = [0x8000, 0x8001, 0x0010] := by decide
  rw [h]
  intro q hq
  simp only [List.mem_cons, List.not_mem_nil, or_false] at hq
  rcases hq with rfl | rfl | rfl <;> rfl

theorem witness_ByteReadAfterWrite : State.reset.mem.wf ∧ (0xFFFF : Addr) ≠ 0x0000 := by decide

theorem witness_WordAccessIsLittleEndian :
    State.reset.mem.wf ∧ (0xFFFE : Addr) ≠ 0xFFFF ∧
    ((0x0000 : Addr) ≠ 0xFFFE ∧ (0x0000 : Addr) ≠ 0xFFFE + 1) ∧
    (TopWrap.fault = .fault ∧ (0xFFFF : Addr) = 0xFFFF) := by decide

theorem witness_CanonicalMemoryIsUnique :
    Memory.wf [(0x0000, 0x01), (0xFFFF, 0x02)] ∧
      ∀ a : Addr, memRead [(0x0000, 0x01), (0xFFFF, 0x02)] a.toNat = memRead [(0x0000, 0x01), (0xFFFF, 0x02)] a.toNat :=
  ⟨by decide, fun _ => rfl⟩

/-- The empty image, the longest image that fits, and one byte more. -/
theorem witness_LoadPlacesImageAndVector :
    State.reset.mem.wf ∧ ([] : List Byte).length ≤ 0x8000 ∧
    (List.replicate 0x8000 (0xE8 : Byte)).length ≤ 0x8000 ∧ (List.replicate 0x8001 (0xE8 : Byte)).length > 0x8000 :=
  ⟨by decide, by decide, by rw [List.length_replicate], by rw [List.length_replicate]; decide⟩

/-- The indices and addresses of the clauses about an image of one byte. -/
theorem witness_LoadPlacesImageAndVector_clauses :
    (0 < ([0xE8] : List Byte).length ∧ 0 ≠ 0x7FFC ∧ 0 ≠ 0x7FFD) ∧ (0x7FFF : Addr).toNat < 0x8000 ∧
    (0x8000 + ([0xE8] : List Byte).length ≤ (0x8001 : Addr).toNat ∧ (0x8001 : Addr) ≠ 0xFFFC ∧
      (0x8001 : Addr) ≠ 0xFFFD) := by decide

theorem witness_WrittenInstructionRuns :
    ({ State.reset with pc := 0xFFFC }).mem.wf ∧ ({ State.reset with pc := 0xFFFC }).rs = .running ∧
    ({ State.reset with pc := 0xFFFC }).pc.toNat + 1 + (Instr.ldaAbsolute 0x1234).width ≤ 0xFFFF := by decide

/-- The longest image below the vector. -/
theorem witness_BootRunsFirstInstruction :
    State.powerOn.mem.wf ∧ (encode Instr.tax ++ List.replicate 0x7FFB 0xE8).length ≤ 0x7FFC := by
  refine ⟨Memory.wf_nil, ?_⟩
  rw [List.length_append, List.length_replicate]
  decide

theorem witness_HostWriteChangesWhatItNames : State.reset.mem.wf ∧ (0x0000 : Addr) ≠ 0xFFFF := by decide

end Sys2Proof.Tests
end

section
/-! PROOFS. The statements of 10_state.md: memory as what can be read, the operations of the host, the inert SP slot,
and what ends a run. -/

namespace Sys2Proof.Machine

/-! ### Memory as what can be read (10_state.md R22) -/

/-- In canonical form the entries are exactly the addresses that read as something else than the zero fill. -/
theorem Memory.mem_iff_memRead {m : Memory} (hm : m.wf) (k : Nat) (b : Byte) :
    (k, b) ∈ m ↔ memRead m k = b ∧ b ≠ Config.zeroFill := by
  induction m with
  | nil => exact ⟨fun h => absurd h List.not_mem_nil, fun ⟨hr, hb⟩ => absurd hr.symm hb⟩
  | cons c m ih =>
    obtain ⟨j, v⟩ := c
    have hlt := (List.pairwise_cons.1 hm.1).1
    have hv : v ≠ Config.zeroFill := (hm.2 (j, v) List.mem_cons_self).2
    rw [List.mem_cons, Prod.mk.injEq]
    by_cases hk : j = k
    · subst hk
      have hnot : (j, b) ∉ m := fun h => Nat.lt_irrefl j (hlt _ h)
      rw [memRead_head]
      constructor
      · rintro (⟨_, rfl⟩ | h)
        · exact ⟨rfl, hv⟩
        · exact absurd h hnot
      · exact fun h => .inl ⟨rfl, h.1.symm⟩
    · rw [memRead, if_neg hk, ← ih (Memory.wf_tail hm)]
      exact ⟨fun h => h.resolve_left fun h => hk h.1.symm, .inr⟩

/-- An entry of one canonical memory is an entry of every other that reads alike. -/
theorem Memory.mem_of_memRead_eq {m m' : Memory} (hm : m.wf) (hm' : m'.wf)
    (h : ∀ a : Addr, memRead m a.toNat = memRead m' a.toNat) {c : Host.Cell} (hc : c ∈ m) : c ∈ m' := by
  have hk : (BitVec.ofNat 16 c.1).toNat = c.1 := Nat.mod_eq_of_lt (hm.2 c hc).1
  have hr : memRead m c.1 = memRead m' c.1 := by simpa only [hk] using h (BitVec.ofNat 16 c.1)
  rw [Memory.mem_iff_memRead hm', ← hr]
  exact (Memory.mem_iff_memRead hm c.1 c.2).1 hc

/-- Settles O53: the canonical form lists its entries by rising address, and the entries are what can be read. -/
theorem canonicalMemoryIsUnique : Obligations.CanonicalMemoryIsUnique := by
  intro m m' hm hm' h
  have hirr : Std.Irrefl (fun c d : Host.Cell => c.1 < d.1) := ⟨fun c => Nat.lt_irrefl c.1⟩
  have hanti : Std.Antisymm (fun c d : Host.Cell => c.1 < d.1) := ⟨fun _ _ h h' => absurd h (Nat.lt_asymm h')⟩
  exact hm.1.eq_of_mem_iff hm'.1 fun c =>
    ⟨Memory.mem_of_memRead_eq hm hm' h, Memory.mem_of_memRead_eq hm' hm fun a => (h a).symm⟩

/-! ### The operations of the host (10_state.md R25, R28; 20_memory.md R40) -/

/-- Everything a 16-bit store that succeeds can do. -/
theorem State.write16_eq_some {tw : TopWrap} {a v : Addr} {s t : State} (h : s.write16 tw a v = some t) :
    t = s.writeWord a v := by
  rw [State.write16] at h
  split at h
  · cases h
  · exact (Option.some.inj h).symm

/-- Everything a host write that succeeds can do: write registers, a byte or a word. -/
theorem hostWrite_ok {tw : TopWrap} {w : HostWrite} {s t : State} (h : hostWrite tw w s = .ok t) :
    t = { s with a := t.a, x := t.x, y := t.y, p := t.p, pc := t.pc } ∨
      (∃ q v, w = .byte q v ∧ t = s.writeByte q v) ∨ ∃ q v, w = .word q v ∧ t = s.writeWord q v := by
  cases w with
  | byte q v => exact .inr (.inl ⟨q, v, rfl, (Except.ok.inj h).symm⟩)
  | word q v =>
    rcases hw : s.write16 tw q v with _ | u
    · simp [hostWrite, hw] at h
    · have hu : u = t := by simpa [hostWrite, hw] using h
      exact .inr (.inr ⟨q, v, rfl, hu ▸ State.write16_eq_some hw⟩)
  | a v => cases h; exact .inl rfl
  | x v => cases h; exact .inl rfl
  | y v => cases h; exact .inl rfl
  | p v => cases h; exact .inl rfl
  | pc v => cases h; exact .inl rfl

/-- Everything a load that succeeds does: the image, then the reset vector. -/
theorem load_ok {image : List Byte} {s t : State} (h : load image s = .ok t) :
    t = (State.writeBytes image Config.loadBase s).writeWord Config.resetVector Config.loadBase := by
  rw [load] at h
  split at h
  · cases h
  · exact (Except.ok.inj h).symm

theorem load_wf {image : List Byte} {s t : State} (hs : s.mem.wf) (h : load image s = .ok t) : t.mem.wf := by
  rw [load_ok h]
  exact State.writeWord_wf (State.writeBytes_wf image Config.loadBase hs) _ _

theorem load_sp {image : List Byte} {s t : State} (h : load image s = .ok t) : t.sp = s.sp := by
  rw [load_ok h, State.writeWord_sp, State.writeBytes_eq]

theorem hostWrite_wf {tw : TopWrap} {w : HostWrite} {s t : State} (hs : s.mem.wf) (h : hostWrite tw w s = .ok t) :
    t.mem.wf := by
  rcases hostWrite_ok h with ht | ⟨q, v, _, rfl⟩ | ⟨q, v, _, rfl⟩
  · rw [ht]; exact hs
  · exact State.writeByte_wf hs q v
  · exact State.writeWord_wf hs q v

theorem hostWrite_sp {tw : TopWrap} {w : HostWrite} {s t : State} (h : hostWrite tw w s = .ok t) : t.sp = s.sp := by
  rcases hostWrite_ok h with ht | ⟨q, v, _, rfl⟩ | ⟨q, v, _, rfl⟩
  · rw [ht]
  · rfl
  · rfl

/-- Settles O44: `reset` leaves memory alone, and what the other operations write keeps the form. -/
theorem hostKeepsCanonicalMemory : Obligations.HostKeepsCanonicalMemory :=
  fun _ _ _ hs => ⟨hs, fun _ h => load_wf hs h, fun _ h => hostWrite_wf hs h⟩

/-- Settles O42: memory is the empty list and there is no report. -/
theorem resetMeetsInvariant : Obligations.ResetMeetsInvariant :=
  ⟨Memory.wf_nil, fun _ hf => nomatch (hf : none = some _)⟩

/-- Settles O59: a register write is the update of its field; for a byte it is read after write. -/
theorem hostWriteChangesWhatItNames : Obligations.HostWriteChangesWhatItNames := by
  intro tw s v w q r hs
  refine ⟨⟨_, rfl, rfl, rfl⟩, ⟨_, rfl, rfl, rfl⟩, ⟨_, rfl, rfl, rfl⟩, ⟨_, rfl, rfl, rfl⟩, ⟨_, rfl, rfl, rfl⟩,
    s.writeByte q v, rfl, rfl, ?_, fun hr => ?_⟩
  · rw [inspectMemory, State.readByte_writeByte hs, if_pos rfl]
  · rw [inspectMemory, State.readByte_writeByte hs, if_neg hr, inspectMemory]

/-! ### The stack-pointer slot (10_state.md R13) -/

/-- No meaning reads or writes SP. -/
theorem exec_withSp (i : Instr) (s : State) (v : Byte) :
    ∃ t, exec i s = .next t ∧ t.sp = s.sp ∧ exec i { s with sp := v } = .next { t with sp := v } := by
  cases i <;> exact ⟨_, rfl, rfl, rfl⟩

/-- No step reads or writes SP: each case of a step has its premises of the state with another SP too. -/
theorem engineStep_withSp (tw : TopWrap) (s : State) (v : Byte) :
    ∃ t, engineStep tw s = .next t ∧ t.sp = s.sp ∧ engineStep tw { s with sp := v } = .next { t with sp := v } := by
  rcases engineStep_cases tw s with ⟨hr, h⟩ | ⟨hr, hf, h⟩ | ⟨hr, hf, ⟨e, hd⟩, h⟩ | ⟨i, rest, hr, hf, hd, ho, h⟩ |
    ⟨i, rest, hr, hf, hd, ho, h⟩
  · exact ⟨_, h, rfl, engineStep_halted (s := { s with sp := v }) hr⟩
  · exact ⟨_, h, rfl, engineStep_fetchOverrun (s := { s with sp := v }) hr hf⟩
  · exact ⟨_, h, rfl, engineStep_decodeError (s := { s with sp := v }) hr hf hd⟩
  · exact ⟨_, h, rfl, engineStep_successorOverrun (s := { s with sp := v }) hr hf hd ho⟩
  · rw [h, engineStep_executes (s := { s with sp := v }) hr hf hd ho]
    exact exec_withSp i s v

/-- Settles O49: by the cases of a step, and by what each host operation can write. -/
theorem stackPointerIsInert : Obligations.StackPointerIsInert :=
  fun tw s v => ⟨engineStep_withSp tw s v, rfl, rfl, rfl, fun _ _ h => hostWrite_sp h, fun _ _ h => load_sp h⟩

/-! ### What ends a run (10_state.md R20, 40_engine.md R81, R93) -/

/-- Only the halt's meaning writes the run state. -/
theorem exec_rs {i : Instr} (hi : i ≠ .brk) (s : State) : ∃ t, exec i s = .next t ∧ t.rs = s.rs := by
  rcases exec_cases i s with ⟨op, _, _, h⟩ | ⟨op, _, _, h⟩ | ⟨_, h⟩ | ⟨_, h⟩ | ⟨hb, _⟩
  · exact ⟨_, h.trans (runHandler_load i.width op s), rfl⟩
  · exact ⟨_, h.trans (runHandler_compare i.width op s), rfl⟩
  · exact ⟨_, h, rfl⟩
  · exact ⟨_, h, rfl⟩
  · exact absurd hb hi

/-- The run state after a step of a Running engine: Running where the byte has a descriptor, fits and is no halt. -/
theorem stepState_rs_of_running {tw : TopWrap} {s : State} (hr : s.rs = .running) :
    (stepState tw s).rs = .running ↔
      ∃ d, iset (s.readByte s.pc) = some d ∧ s.readByte s.pc ≠ Config.haltOpcode ∧
        successorOverruns tw s.pc d.width = false := by
  rcases paramStep_cases (Params.spec tw) s with ⟨hh, _⟩ | ⟨_, hf, h⟩ | ⟨_, _, hl, h⟩ |
    ⟨d, i, rest, _, _, hl, hm, _, _, h⟩
  · rw [hh] at hr; cases hr
  · rw [stepState_of_next h, State.raise_rs]
    refine ⟨nofun, fun ⟨d, _, _, hs⟩ => ?_⟩
    obtain ⟨htw, hpc⟩ := fetchOverruns_eq_true.1 hf
    have hle := successorOverruns_eq_false.1 hs htw
    have htop : s.pc.toNat = 0xFFFF := congrArg BitVec.toNat hpc
    omega
  · rw [stepState_of_next h, State.raise_rs]
    exact ⟨nofun, fun ⟨d, hd, _⟩ => nomatch hd.symm.trans hl⟩
  · have hd : ∀ d', iset (s.readByte s.pc) = some d' → d = d' := fun d' h' => Option.some.inj (hl.symm.trans h')
    rcases h with ⟨ho, h⟩ | ⟨_, hh, h⟩ | ⟨ho, hh, h⟩
    · rw [stepState_of_next h, State.raise_rs]
      refine ⟨nofun, fun ⟨d', h', _, hs⟩ => ?_⟩
      rw [← hd d' h', show successorOverruns tw s.pc d.width = true from ho] at hs
      cases hs
    · rw [stepState_of_next h, State.halt_rs]
      exact ⟨nofun, fun ⟨_, _, hn, _⟩ => absurd hh hn⟩
    · have hi : i ≠ .brk := fun hb =>
        hh ((isetRows_makes (lookup_mem hl) hm).1.symm.trans (Instr.opcode_eq_halt.2 hb))
      obtain ⟨t, ht, hrs⟩ := exec_rs hi s
      rw [stepState_of_next (h.trans ht), hrs]
      exact ⟨fun _ => ⟨d, hl, hh, ho⟩, fun _ => hr⟩

/-- Settles O35: the run state after a step, with the room the instruction needs in numbers. -/
theorem engineStopsExactlyWhen : Obligations.EngineStopsExactlyWhen := by
  intro tw s hr
  rw [stepState_rs_of_running hr]
  simp only [successorOverruns_eq_false, Config.haltOpcode]

end Sys2Proof.Machine
end

section
/-! PROOFS. The statements of 20_memory.md: one byte and one word read back, what `load` leaves at every address, and
the fetch of an instruction just written. -/

namespace Sys2Proof

/-! ### The bytes of a word as numbers (20_memory.md R37) -/

theorem lowByte_toNat (w : Addr) : (lowByte w).toNat = w.toNat % 256 := by
  simp [lowByte, BitVec.extractLsb'_toNat]

theorem highByte_toNat (w : Addr) : (highByte w).toNat = w.toNat / 256 := by
  have hw := w.isLt
  simp only [highByte, BitVec.extractLsb'_toNat, Nat.shiftRight_eq_div_pow]
  omega

theorem Addr.ne_add_one (a : Addr) : a ≠ a + 1 := by
  bv_omega

/-! ### The decoder on an encoding (30_encoding.md R55, R57, R59) -/

/-- The decoder reads back what the encoder wrote and stops there: the operand bytes are the instruction's, and a word
is its two bytes. -/
theorem decode_encode_append (i : Instr) (rest : List Byte) : decode (encode i ++ rest) = .ok (i, rest) := by
  have hword (make : Addr → Instr) (w : Addr) :
      (Except.ok (make (word16 (lowByte w) (highByte w)), rest) : Except DecodeError (Instr × List Byte)) =
        .ok (make w, rest) := by
    rw [word16_lowByte_highByte]
  cases i with
  | ldaAbsolute w => exact hword .ldaAbsolute w
  | ldaAbsoluteX w => exact hword .ldaAbsoluteX w
  | ldaAbsoluteY w => exact hword .ldaAbsoluteY w
  | cmpAbsolute w => exact hword .cmpAbsolute w
  | cmpAbsoluteX w => exact hword .cmpAbsoluteX w
  | cmpAbsoluteY w => exact hword .cmpAbsoluteY w
  | _ => rfl

namespace Machine

/-! ### Bytes and words (20_memory.md R32 to R37) -/

/-- Settles O51: by the law of a read after a write. -/
theorem byteReadAfterWrite : Obligations.ByteReadAfterWrite := by
  intro s a b v hs
  refine ⟨?_, fun hb => ?_, State.writeByte_wf hs a v, rfl⟩
  · rw [State.readByte_writeByte hs, if_pos rfl]
  · rw [State.readByte_writeByte hs, if_neg hb]

theorem access16Overruns_eq_false {tw : TopWrap} {a : Addr} :
    access16Overruns tw a = false ↔ (tw = .fault → a ≠ 0xFFFF) := by
  cases tw <;> simp [access16Overruns]

theorem State.read16_of_fits {tw : TopWrap} {a : Addr} (h : tw = .fault → a ≠ 0xFFFF) (s : State) :
    s.read16 tw a = some (s.readWord a) := by
  rw [State.read16, access16Overruns_eq_false.2 h, if_neg Bool.false_ne_true]

theorem State.write16_of_fits {tw : TopWrap} {a : Addr} (h : tw = .fault → a ≠ 0xFFFF) (v : Addr) (s : State) :
    s.write16 tw a v = some (s.writeWord a v) := by
  rw [State.write16, access16Overruns_eq_false.2 h, if_neg Bool.false_ne_true]

theorem State.readByte_writeWord_low {s : State} (hs : s.mem.wf) (a v : Addr) :
    (s.writeWord a v).readByte a = lowByte v := by
  rw [State.readByte_writeWord hs, if_neg (Addr.ne_add_one a), if_pos rfl]

theorem State.readByte_writeWord_high {s : State} (hs : s.mem.wf) (a v : Addr) :
    (s.writeWord a v).readByte (a + 1) = highByte v := by
  rw [State.readByte_writeWord hs, if_pos rfl]

/-- A word reads back as written. -/
theorem State.readWord_writeWord {s : State} (hs : s.mem.wf) (a v : Addr) : (s.writeWord a v).readWord a = v := by
  rw [State.readWord, State.readByte_writeWord_low hs, State.readByte_writeWord_high hs, word16_lowByte_highByte]

/-- Settles O52: an access that fits is a byte access at each of the two addresses, which are never the same. -/
theorem wordAccessIsLittleEndian : Obligations.WordAccessIsLittleEndian := by
  intro tw s a v hs
  constructor
  · intro hfits
    refine ⟨?_, s.writeWord a v, State.write16_of_fits hfits v s, ?_, ?_, ?_, fun b hlow hhigh => ?_, rfl⟩
    · rw [State.read16_of_fits hfits, State.readWord, word16_eq]
    · rw [State.readByte_writeWord_low hs, lowByte_toNat]
    · rw [State.readByte_writeWord_high hs, highByte_toNat]
    · rw [State.read16_of_fits hfits, State.readWord_writeWord hs]
    · rw [State.readByte_writeWord hs, if_neg hhigh, if_neg hlow]
  · rintro ⟨rfl, rfl⟩
    exact ⟨rfl, rfl⟩

/-! ### The image and the vector (20_memory.md R40, 60_exceptions.md R144) -/

theorem load_of_fits {image : List Byte} (h : image.length ≤ Config.maxImage) (s : State) :
    load image s =
      .ok ((State.writeBytes image Config.loadBase s).writeWord Config.resetVector Config.loadBase) := by
  rw [load, if_neg (Nat.not_lt.2 h)]

/-- What every byte reads as after a load: the vector wins over the image. -/
theorem readByte_load {image : List Byte} {s t : State} (hs : s.mem.wf) (h : load image s = .ok t) (q : Addr) :
    t.readByte q =
      if q = 0xFFFD then 0x80 else if q = 0xFFFC then 0x00
      else (State.writeBytes image Config.loadBase s).readByte q := by
  rw [load_ok h, State.readByte_writeWord (State.writeBytes_wf image Config.loadBase hs)]
  rfl

theorem load_changes_memory_only {image : List Byte} {s t : State} (h : load image s = .ok t) :
    t = { s with mem := t.mem } := by
  rw [load_ok h, State.writeBytes_eq]
  rfl

/-- Settles O54: the vector is written last, and the image reads as it was copied. -/
theorem loadPlacesImageAndVector : Obligations.LoadPlacesImageAndVector := by
  intro image s hs
  refine ⟨fun hlen => ?_, fun hlen => if_pos hlen⟩
  have hload := load_of_fits hlen s
  refine ⟨_, hload, fun k hk hlow hhigh => ?_, ?_, ?_, fun q hout hlow hhigh => ?_, load_changes_memory_only hload⟩
  · rw [readByte_load hs hload, if_neg (by bv_omega), if_neg (by bv_omega), BitVec.ofNat_add]
    exact State.readByte_writeBytes_inside image Config.loadBase hs (by omega) k hk
  · rw [readByte_load hs hload]
    rfl
  · rw [readByte_load hs hload]
    rfl
  · rw [readByte_load hs hload, if_neg hhigh, if_neg hlow]
    refine State.readByte_writeBytes_outside image Config.loadBase hs q fun k hk hq => ?_
    rw [hq, Config.loadBase] at hout
    bv_omega

/-! ### Fetch after a write (20_memory.md R46, 40_engine.md R81) -/

/-- The bytes at PC are fetched in order. -/
theorem State.fetchWindow_getElem (s : State) (k : Nat) (h : k < s.fetchWindow.length) :
    s.fetchWindow[k] = s.readByte (s.pc + BitVec.ofNat 16 k) := by
  match k, h with
  | 0, _ => simp [State.fetchWindow]
  | 1, _ => rfl
  | 2, _ => rfl

/-- A Running engine with an instruction's encoding at PC, and room below the top, runs that instruction. -/
theorem step_of_encode_at_pc {i : Instr} {s : State} (hr : s.rs = .running)
    (hroom : s.pc.toNat + 1 + i.width ≤ 0xFFFF)
    (hbytes : ∀ k (h : k < (encode i).length), s.readByte (s.pc + BitVec.ofNat 16 k) = (encode i)[k]) :
    step s = exec i s := by
  have hprefix : encode i <+: s.fetchWindow := by
    have hlen : (encode i).length ≤ s.fetchWindow.length := by
      have hwidth := i.width_le_two
      rw [encode_length, show s.fetchWindow.length = 3 from rfl]
      omega
    exact List.prefix_iff_getElem.2 ⟨hlen, fun k hk => by rw [State.fetchWindow_getElem, hbytes k hk]⟩
  obtain ⟨rest, hrest⟩ := hprefix
  have hdecode : decode s.fetchWindow = .ok (i, rest) := by rw [← hrest, decode_encode_append]
  have htop : s.pc ≠ 0xFFFF := by bv_omega
  exact engineStep_executes hr (fetchOverruns_eq_false.2 fun _ => htop) hdecode
    (successorOverruns_eq_false.2 fun _ => hroom)

/-- Settles O55: the bytes written at PC are the ones fetched, and writing them leaves PC and the run state alone. -/
theorem writtenInstructionRuns : Obligations.WrittenInstructionRuns := by
  intro i s hs hr hroom
  have hpc : (State.writeBytes (encode i) s.pc s).pc = s.pc := by rw [State.writeBytes_eq]
  have hrs : (State.writeBytes (encode i) s.pc s).rs = .running := by rw [State.writeBytes_eq]; exact hr
  have hlen : (encode i).length ≤ 65536 := by
    rw [encode_length]
    omega
  refine step_of_encode_at_pc hrs (by rw [hpc]; exact hroom) fun k hk => ?_
  rw [hpc]
  exact State.readByte_writeBytes_inside (encode i) s.pc hs hlen k hk

end Machine

end Sys2Proof
end

section
/-! PROOFS. The statements of 30_encoding.md: the decoder and the encoder are inverse to each other over the spec's
table, its 19 opcode bytes, the Addressing-Mode Resolver in every mode, and the fault no step raises. -/

namespace Sys2Proof

/-! ### The table and its bytes (30_encoding.md R56, R57, R60) -/

/-- The bytes with a descriptor are those of the rows. -/
theorem exists_lookup_iff {M I : Type} {table : TableOf M I} {b : Byte} :
    (∃ d, lookup table b = some d) ↔ b ∈ table.map Prod.fst := by
  rw [← Option.isSome_iff_exists, lookup, Option.isSome_map, List.find?_isSome]
  simp

theorem decodeWith_cons_of_lookup_none {M I : Type} {table : TableOf M I} {b : Byte} (h : lookup table b = none)
    (rest : List Byte) : decodeWith table (b :: rest) = .error (.unknownOpcode b) := by
  simp only [decodeWith, h]

/-! ### The encoder on what decodes (30_encoding.md R55, R59) -/

/-- The instructions a handler makes have as operand bytes the ones it takes, a word low byte first. -/
def HandlerOf.KeepsOperand : Handler → Prop
  | .implied i => i.operandBytes = []
  | .op8 make => ∀ nn, (make nn).operandBytes = [nn]
  | .op16 make => ∀ nnnn, (make nnnn).operandBytes = bytesOf16 nnnn

theorem isetRows_keepsOperand {r : Byte × Descriptor} (hr : r ∈ isetRows) : r.2.handler.KeepsOperand := by
  simp only [isetRows, isetImplied, isetLoad, isetCompare, List.cons_append, List.nil_append, List.mem_cons,
    List.not_mem_nil, or_false] at hr
  rcases hr with rfl | rfl | rfl | rfl | rfl | rfl | rfl | rfl | rfl | rfl | rfl | rfl | rfl | rfl | rfl | rfl | rfl |
    rfl | rfl <;> simp [HandlerOf.KeepsOperand, Instr.operandBytes]

/-- The bytes a handler assembles are the operand bytes of the instruction it makes, and the rest. -/
theorem HandlerOf.KeepsOperand.eq_operandBytes_append {h : Handler} (hk : h.KeepsOperand) {b : Byte}
    {bytes rest : List Byte} {i : Instr} (ha : assemble b h bytes = .ok (i, rest)) :
    bytes = i.operandBytes ++ rest := by
  rcases assemble_ok ha with ⟨rfl, rfl⟩ | ⟨make, nn, rfl, rfl, rfl⟩ | ⟨make, ll, hh, rfl, rfl, rfl⟩
  · rw [show i.operandBytes = [] from hk, List.nil_append]
  · rw [show (make nn).operandBytes = [nn] from hk nn, List.singleton_append]
  · rw [show (make (word16 ll hh)).operandBytes = bytesOf16 (word16 ll hh) from hk _, bytesOf16, lowByte_word16,
      highByte_word16, List.cons_append, List.singleton_append]

/-- What decodes is the encoding of what it decodes to: its first byte has a row, whose handler keeps the operand. -/
theorem encode_append_of_decode {bytes rest : List Byte} {i : Instr} (h : decode bytes = .ok (i, rest)) :
    bytes = encode i ++ rest := by
  obtain ⟨b, bs, d, rfl, hl, ha⟩ := decodeWith_ok h
  have hb : i.opcode = b := (decode_cons h).1
  have hbs : bs = i.operandBytes ++ rest := (isetRows_keepsOperand (lookup_mem hl)).eq_operandBytes_append ha
  rw [encode, hb, hbs, List.cons_append]

/-- Every instruction's opcode byte has the descriptor that gives its width. -/
theorem exists_iset_opcode (i : Instr) : ∃ d, iset i.opcode = some d ∧ d.width = i.width := by
  cases i <;> exact ⟨_, rfl, rfl⟩

/-- Settles O2: the decoder reads back what the encoder wrote. -/
theorem decodeOfEncode : Obligations.DecodeOfEncode := decode_encode_append

/-- Settles O3: the row of the first byte keeps the operand bytes, and every opcode byte's row gives the length. -/
theorem encodeOfDecode : Obligations.EncodeOfDecode := by
  intro bytes rest i h
  obtain ⟨d, hd, hw⟩ := exists_iset_opcode i
  exact ⟨encode_append_of_decode h, d, hd, by rw [encode_length, hw]⟩

/-- Settles O1: by running the decoder. -/
theorem writtenWordsDecode : Obligations.WrittenWordsDecode :=
  ⟨rfl, rfl, rfl, rfl, rfl, rfl, rfl, rfl, rfl, rfl⟩

namespace Machine

/-- The opcode bytes written out are those of the rows. -/
theorem tableOpcodes_perm : tableOpcodes.Perm (isetRows.map Prod.fst) := by decide

theorem mem_tableOpcodes_iff {b : Byte} : b ∈ tableOpcodes ↔ ∃ d, iset b = some d :=
  tableOpcodes_perm.mem_iff.trans exists_lookup_iff.symm

/-- Settles O4: a byte has a descriptor exactly where it has a row, and without one the decoder stops at it. -/
theorem nineteenOpcodes : Obligations.NineteenOpcodes := by
  refine ⟨by decide, rfl, fun b => ⟨mem_tableOpcodes_iff, fun hb rest => decodeWith_cons_of_lookup_none ?_ rest⟩⟩
  exact Option.eq_none_iff_forall_ne_some.2 fun d hd => hb (mem_tableOpcodes_iff.2 ⟨d, hd⟩)

/-! ### The Addressing-Mode Resolver (30_encoding.md R61 to R72) -/

/-- An operand fetched resolves to its effective address. -/
theorem resolve_of_fetchOperand_ok {tw : TopWrap} {opcode : Byte} {a ea : Addr} {mode : Mode} {s : State} {op : Operand}
    (h : fetchOperand tw opcode a s mode = .ok op) (hea : op.effectiveAddress s = ea) :
    resolve tw opcode a mode s = .ok ea := by
  rw [resolve, h, ← hea]

/-- An operand that cannot be fetched is the resolver's fault. -/
theorem resolve_of_fetchOperand_error {tw : TopWrap} {opcode : Byte} {a : Addr} {mode : Mode} {s : State}
    {f : FaultReport} (h : fetchOperand tw opcode a s mode = .error f) : resolve tw opcode a mode s = .error f := by
  rw [resolve, h]

/-- A 16-bit operand that fits is the word at PC. -/
theorem fetchOperand_fetch16_of_fits {tw : TopWrap} {opcode : Byte} {a : Addr} {s : State}
    (h : tw = .fault → s.pc ≠ 0xFFFF) (form : Addr → Operand) :
    fetchOperand.fetch16 tw opcode a s form = .ok (form (s.readWord s.pc)) := by
  rw [fetchOperand.fetch16, State.read16_of_fits h]

/-- A 16-bit operand at the top of memory is the overrun. -/
theorem fetchOperand_fetch16_of_top {opcode : Byte} {a : Addr} {s : State} (h : s.pc = 0xFFFF)
    (form : Addr → Operand) :
    fetchOperand.fetch16 .fault opcode a s form = .error ⟨.addressOverrun, opcode, a⟩ := by
  rw [fetchOperand.fetch16, h]
  rfl

/-- The bytes of a zero-page number are found mod 256. -/
theorem zeroPageNumber_mod (n : Nat) (s : State) : zeroPageNumber (n % 256) s = zeroPageNumber n s := by
  simp only [zeroPageNumber, zeroPageByte, Nat.mod_mod, Nat.mod_add_mod]

/-- Settles O37: the operand byte, or its sum with a register mod 256, is the address. -/
theorem resolverZeroPageModes : Obligations.ResolverZeroPageModes :=
  fun _ _ _ _ => ⟨resolve_of_fetchOperand_ok rfl (zext16_eq _),
    resolve_of_fetchOperand_ok rfl (zeroPageIndexed_eq _ _), resolve_of_fetchOperand_ok rfl (zeroPageIndexed_eq _ _)⟩

/-- Settles O38: the operand is the word at PC unless it overruns, and an index is added to it mod 65536. -/
theorem resolverAbsoluteModes : Obligations.ResolverAbsoluteModes := by
  intro tw opcode a s base hbase
  constructor
  · intro hfits
    have hfetch (form) := fetchOperand_fetch16_of_fits (opcode := opcode) (a := a) hfits form
    have hword : s.readWord s.pc = BitVec.ofNat 16 base := by rw [State.readWord, word16_eq, hbase]
    have hindexed (index : Byte) :
        absoluteIndexed (s.readWord s.pc) index = BitVec.ofNat 16 ((base + index.toNat) % 65536) := by
      rw [absoluteIndexed_eq, State.readWord, word16_toNat, hbase]
    exact ⟨resolve_of_fetchOperand_ok (hfetch .absolute) hword,
      resolve_of_fetchOperand_ok (hfetch .absoluteX) (hindexed s.x),
      resolve_of_fetchOperand_ok (hfetch .absoluteY) (hindexed s.y)⟩
  · rintro ⟨rfl, htop⟩
    exact ⟨resolve_of_fetchOperand_error (fetchOperand_fetch16_of_top htop .absolute),
      resolve_of_fetchOperand_error (fetchOperand_fetch16_of_top htop .absoluteX),
      resolve_of_fetchOperand_error (fetchOperand_fetch16_of_top htop .absoluteY)⟩

/-- Settles O39: the pointer is a number in the zero page, found at an indexed address or indexed itself. -/
theorem resolverIndirectModes : Obligations.ResolverIndirectModes := by
  intro tw opcode a s
  refine ⟨resolve_of_fetchOperand_ok rfl ?_, resolve_of_fetchOperand_ok rfl ?_⟩
  · rw [Operand.effectiveAddress, zeroPagePointer_eq, BitVec.toNat_add, zeroPageNumber_mod]
  · rw [Operand.effectiveAddress, absoluteIndexed_eq, zeroPagePointer_eq, BitVec.toNat_ofNat,
      Nat.mod_eq_of_lt (zeroPageNumber_lt _ s)]

/-- Settles O40: the fetch in Immediate names PC, and NoneAddressing has none. -/
theorem resolverImmediateAndNone : Obligations.ResolverImmediateAndNone :=
  fun _ _ _ _ => ⟨resolve_of_fetchOperand_ok rfl rfl, rfl, resolve_of_fetchOperand_error rfl⟩

/-! ### The faults a step raises (30_encoding.md R56, R71; 40_engine.md R85) -/

/-- No meaning writes the report. -/
theorem exec_err (i : Instr) (s : State) : ∃ t, exec i s = .next t ∧ t.err = s.err := by
  rcases exec_cases i s with ⟨op, _, _, h⟩ | ⟨op, _, _, h⟩ | ⟨_, h⟩ | ⟨_, h⟩ | ⟨_, h⟩
  · exact ⟨_, h.trans (runHandler_load i.width op s), rfl⟩
  · exact ⟨_, h.trans (runHandler_compare i.width op s), rfl⟩
  · exact ⟨_, h, rfl⟩
  · exact ⟨_, h, rfl⟩
  · exact ⟨_, h, rfl⟩

/-- A step keeps the report or raises one of two faults, with the byte at PC and its address. -/
theorem engineStep_err (tw : TopWrap) (s : State) :
    ∃ t, engineStep tw s = .next t ∧ (t.err = s.err ∨ t.err = some ⟨.addressOverrun, s.readByte s.pc, s.pc⟩ ∨
      t.err = some ⟨.unknownOpcode, s.readByte s.pc, s.pc⟩) := by
  rcases engineStep_cases tw s with ⟨_, h⟩ | ⟨_, _, h⟩ | ⟨_, _, _, h⟩ | ⟨_, _, _, _, _, _, h⟩ | ⟨i, _, _, _, _, _, h⟩
  · exact ⟨_, h, .inl rfl⟩
  · exact ⟨_, h, .inr (.inl rfl)⟩
  · exact ⟨_, h, .inr (.inr rfl)⟩
  · exact ⟨_, h, .inr (.inl rfl)⟩
  · obtain ⟨t, ht, herr⟩ := exec_err i s
    exact ⟨t, h.trans ht, .inl herr⟩

/-- Settles O34: neither of the faults a step raises is InvalidAddressingMode, so the report is the one before. -/
theorem invalidAddressingModeUnreachable : Obligations.InvalidAddressingModeUnreachable := by
  intro tw s t f hstep hf hkind
  obtain ⟨t', hstep', herr⟩ := engineStep_err tw s
  obtain rfl : t = t' := by simpa [hstep] using hstep'
  rcases herr with herr | herr | herr
  · rw [← herr, hf]
  · obtain rfl := Option.some.inj (hf.symm.trans herr)
    cases hkind
  · obtain rfl := Option.some.inj (hf.symm.trans herr)
    cases hkind

end Machine

end Sys2Proof
end

section
/-! PROOFS. The statements of 40_engine.md: the flag policy, the step over any table and over the spec's, its equality
with the body of the run loop, how a run ends, and what a step depends on. -/

namespace Sys2Proof

/-! ### The operand assembly and the rows (30_encoding.md R56, R59) -/

/-- The operand assembly reads no byte beyond the handler's width. -/
theorem assemble_congr {I : Type} {b : Byte} {h : HandlerOf I} {b1 b2 c1 c2 : Byte} {i : I} {rest : List Byte}
    (ha : assemble b h [b1, b2] = .ok (i, rest)) (h1 : 1 ≤ h.width → c1 = b1) (h2 : 2 ≤ h.width → c2 = b2) :
    ∃ rest', assemble b h [c1, c2] = .ok (i, rest') := by
  rcases assemble_ok ha with ⟨rfl, _⟩ | ⟨make, nn, rfl, rfl, hb⟩ | ⟨make, ll, hh, rfl, rfl, hb⟩
  · exact ⟨_, rfl⟩
  · cases hb
    rw [h1 (Nat.le_refl 1)]
    exact ⟨_, rfl⟩
  · cases hb
    rw [h1 (Nat.le_succ 1), h2 (Nat.le_refl 2)]
    exact ⟨_, rfl⟩

theorem DescriptorOf.handler_width {M I : Type} {d : DescriptorOf M I} (h : d.widthAgrees = true) :
    d.handler.width = d.width :=
  beq_iff_eq.1 (Bool.and_eq_true_iff.1 h).2

/-- The halt's row stands at the halt opcode. -/
theorem isetRows_brk : ∀ r ∈ isetRows, r.2.mnemonic = .brk → r.1 = Config.haltOpcode := by decide

namespace Machine

/-! ### The flag policy (40_engine.md R86, R87) -/

/-- What the packed form of `SetZN` holds in every flag. -/
theorem statusAfterResult_getLsbD (p r : Byte) (g : Flag) :
    (statusAfterResult p r).getLsbD g.bit =
      if g = .negative then r.msb else if g = .zero then r == 0x00 else p.getLsbD g.bit := by
  by_cases hr : r = 0x00
  · cases g <;> simp [statusAfterResult, Flag.bit, hr]
  · rw [statusAfterResult, if_neg hr, beq_eq_false_iff_ne.2 hr]
    cases g <;> simp [Flag.bit, BitVec.msb_eq_getLsbD_last]

/-- `SetZN` as an update of the packed P. -/
theorem State.setZN_eq_statusAfterResult (s : State) (r : Byte) :
    s.setZN r = { s with p := statusAfterResult s.p r } := by
  have hp : (s.setZN r).p = statusAfterResult s.p r :=
    status_ext fun g => (State.flag_setZN s r g).trans (statusAfterResult_getLsbD s.p r g).symm
  rw [State.setZN_eq, hp]

/-- Bits 1 and 7 of `p` say of the byte `r` whether it is zero and what its bit 7 is. -/
def DescribesResult (p r : Byte) : Prop := p.getLsbD 1 = (r == 0x00) ∧ p.getLsbD 7 = r.getLsbD 7

/-- A zero byte has bit 7 clear, so the two bits that describe a byte are never both set. -/
theorem DescribesResult.not_both {p r : Byte} (h : DescribesResult p r) :
    ¬ (p.getLsbD 1 = true ∧ p.getLsbD 7 = true) := by
  rintro ⟨hz, hn⟩
  obtain rfl : r = 0x00 := by simpa using h.1.symm.trans hz
  exact absurd (h.2.symm.trans hn) (by decide)

theorem State.setZN_describes (s : State) (r : Byte) : DescribesResult (s.setZN r).p r := by
  refine ⟨State.flag_setZN s r .zero, (State.flag_setZN s r .negative).trans ?_⟩
  rw [if_pos rfl, BitVec.msb_eq_getLsbD_last]

theorem State.compare_describes (s : State) (m : Byte) : DescribesResult (s.compare m).p (s.a - m) :=
  State.setZN_describes _ _

/-- Settles O25: the two bits are whether the byte is zero and its bit 7, read off in each of the three ranges. -/
theorem zeroNegativePolicy : Obligations.ZeroNegativePolicy := by
  intro s r
  obtain ⟨hz, hn⟩ := State.setZN_describes s r
  have hbit : r.getLsbD 7 = decide (0x80 ≤ r.toNat) := by
    rw [← BitVec.msb_eq_getLsbD_last r, BitVec.msb_eq_decide]
  have hzero : (r == 0x00) = decide (r.toNat = 0) := by
    rw [Bool.eq_iff_iff, beq_iff_eq, decide_eq_true_iff, BitVec.toNat_eq]
    rfl
  rw [hz, hn, hbit, hzero]
  refine ⟨State.setZN_eq_statusAfterResult s r, fun h => ?_, fun h => ?_, fun h => ?_⟩ <;>
    simp only [decide_eq_true_eq, decide_eq_false_iff_not] <;> omega

/-- Settles O26: every handler ends in a `SetZN` of its result. -/
theorem resultFlagsDescribeResult : Obligations.ResultFlagsDescribeResult := by
  intro i s hi
  rcases exec_cases i s with ⟨op, _, hm, h⟩ | ⟨op, hop, hm, h⟩ | ⟨rfl, h⟩ | ⟨rfl, h⟩ | ⟨rfl, _⟩
  · have hp := State.setZN_describes s (op.value s)
    refine ⟨_, h.trans (runHandler_load i.width op s), fun _ => hp, ?_, ?_, hp.not_both⟩ <;> simp [hm]
  · have hp := State.compare_describes s (op.value s)
    refine ⟨_, h.trans (runHandler_compare i.width op s), ?_, ?_, fun op' _ hop' => ?_, hp.not_both⟩
    · simp [hm]
    · simp [hm]
    · obtain rfl := Option.some.inj (hop.symm.trans hop')
      exact hp
  · have hp := State.setZN_describes s s.a
    exact ⟨_, h, nofun, fun _ => hp, nofun, hp.not_both⟩
  · have hp := State.setZN_describes s (s.x + 1)
    exact ⟨_, h, nofun, fun _ => hp, nofun, hp.not_both⟩
  · exact absurd rfl hi

/-! ### The step over any table (40_engine.md R81, R94): one equation a case -/

section
variable {M I : Type} {pr : Params M I} {s : State} {d : DescriptorOf M I}

theorem paramStep_halted (hr : s.rs = .halted) : paramStep pr s = .next s := by
  simp [paramStep, hr]

theorem paramStep_fetchOverrun (hr : s.rs = .running) (hf : fetchOverruns pr.topWrap s.pc = true) :
    paramStep pr s = .next (s.raise .addressOverrun (s.readByte s.pc) s.pc) := by
  simp [paramStep, hr, hf]

theorem paramStep_unknownOpcode (hr : s.rs = .running) (hf : fetchOverruns pr.topWrap s.pc = false)
    (hl : lookup pr.table (s.readByte s.pc) = none) :
    paramStep pr s = .next ((s.advancePc 1).raise .unknownOpcode (s.readByte s.pc) s.pc) := by
  simp [paramStep, hr, hf, State.fetchWindow, decodeWith_cons_of_lookup_none hl]

/-- A byte with a descriptor: the overrun of the successor, the halt, or the instruction assembled. -/
theorem paramStep_of_lookup {i : I} {rest : List Byte} (hr : s.rs = .running)
    (hf : fetchOverruns pr.topWrap s.pc = false) (hl : lookup pr.table (s.readByte s.pc) = some d)
    (ha : assemble (s.readByte s.pc) d.handler [s.readByte (s.pc + 1), s.readByte (s.pc + 2)] = .ok (i, rest)) :
    paramStep pr s =
      if successorOverruns pr.topWrap s.pc d.width then
        .next ((s.advancePc 1).raise .addressOverrun (s.readByte s.pc) s.pc)
      else if s.readByte s.pc = pr.haltOpcode then .next (s.advancePc 1).halt else pr.exec i s := by
  simp only [paramStep, hr, hf, State.fetchWindow, decodeWith, hl, ha, operandWidth_of_lookup hl, Bool.false_eq_true,
    if_false]

theorem paramStep_successorOverrun (hr : s.rs = .running) (hf : fetchOverruns pr.topWrap s.pc = false)
    (hl : lookup pr.table (s.readByte s.pc) = some d) (ho : successorOverruns pr.topWrap s.pc d.width = true) :
    paramStep pr s = .next ((s.advancePc 1).raise .addressOverrun (s.readByte s.pc) s.pc) := by
  obtain ⟨i, rest, ha⟩ := assemble_two (s.readByte s.pc) d.handler (s.readByte (s.pc + 1)) (s.readByte (s.pc + 2))
  rw [paramStep_of_lookup hr hf hl ha, if_pos ho]

theorem paramStep_haltOpcode (hr : s.rs = .running) (hf : fetchOverruns pr.topWrap s.pc = false)
    (hl : lookup pr.table (s.readByte s.pc) = some d) (ho : successorOverruns pr.topWrap s.pc d.width = false)
    (hh : s.readByte s.pc = pr.haltOpcode) : paramStep pr s = .next (s.advancePc 1).halt := by
  obtain ⟨i, rest, ha⟩ := assemble_two (s.readByte s.pc) d.handler (s.readByte (s.pc + 1)) (s.readByte (s.pc + 2))
  rw [paramStep_of_lookup hr hf hl ha, ho, if_neg Bool.false_ne_true, if_pos hh]

theorem paramStep_executes {i : I} {rest : List Byte} (hr : s.rs = .running)
    (hf : fetchOverruns pr.topWrap s.pc = false) (hl : lookup pr.table (s.readByte s.pc) = some d)
    (ho : successorOverruns pr.topWrap s.pc d.width = false) (hh : s.readByte s.pc ≠ pr.haltOpcode)
    (ha : assemble (s.readByte s.pc) d.handler [s.readByte (s.pc + 1), s.readByte (s.pc + 2)] = .ok (i, rest)) :
    paramStep pr s = pr.exec i s := by
  rw [paramStep_of_lookup hr hf hl ha, ho, if_neg Bool.false_ne_true, if_neg hh]

theorem paramState_of_next {t : State} (h : paramStep pr s = .next t) : paramState pr s = t := by
  rw [paramState, h]

end

/-- Settles O33: the step answers its state under any parameters. -/
theorem everyStepAnswersNext : Obligations.EveryStepAnswersNext :=
  fun tw s => ⟨_, paramStep_next (Params.spec tw) s, rfl⟩

/-! ### The body of the run loop (40_engine.md R81): one equation a case -/

section
variable {M I : Type} {tw : TopWrap} {halt : Byte} {table : TableOf M I} {handler : M → Option Behaviour} {s : State}
  {d : DescriptorOf M I}

theorem referenceStep_halted (hr : s.rs = .halted) :
    referenceStep tw halt table handler s = (.alreadyHalted, s) := by
  rw [referenceStep, if_pos hr]

theorem referenceStep_fetchOverrun (hr : s.rs = .running) (hf : fetchOverruns tw s.pc = true) :
    referenceStep tw halt table handler s = referenceRaise ⟨.addressOverrun, s.readByte s.pc, s.pc⟩ s := by
  simp [referenceStep, hr, fetchOverruns_eq_true.1 hf]

theorem referenceStep_unknownOpcode (hr : s.rs = .running) (hf : fetchOverruns tw s.pc = false)
    (hl : lookup table (s.readByte s.pc) = none) :
    referenceStep tw halt table handler s =
      referenceRaise ⟨.unknownOpcode, s.readByte s.pc, s.pc⟩ (s.advancePc 1) := by
  rw [referenceStep, if_neg (by simp [hr])]
  simp only [if_neg (not_and.2 (fetchOverruns_eq_false.1 hf)), hl]
  rfl

theorem referenceStep_successorOverrun (hr : s.rs = .running) (hf : fetchOverruns tw s.pc = false)
    (hl : lookup table (s.readByte s.pc) = some d) (ho : successorOverruns tw s.pc d.width = true) :
    referenceStep tw halt table handler s =
      referenceRaise ⟨.addressOverrun, s.readByte s.pc, s.pc⟩ (s.advancePc 1) := by
  rw [referenceStep, if_neg (by simp [hr])]
  simp only [if_neg (not_and.2 (fetchOverruns_eq_false.1 hf)), hl, if_pos (successorOverruns_eq_true.1 ho)]
  rfl

theorem not_successor_above_top {a : Addr} {w : Nat} (ho : successorOverruns tw a w = false) :
    ¬ (tw = .fault ∧ a.toNat + 1 + w > 0xFFFF) :=
  not_and.2 fun htw => Nat.not_lt.2 (successorOverruns_eq_false.1 ho htw)

/-- The halt opcode, or a mnemonic without a handler. -/
theorem referenceStep_halts (hr : s.rs = .running) (hf : fetchOverruns tw s.pc = false)
    (hl : lookup table (s.readByte s.pc) = some d) (ho : successorOverruns tw s.pc d.width = false)
    (hh : s.readByte s.pc = halt ∨ handler d.mnemonic = none) :
    referenceStep tw halt table handler s = (.halt, (s.advancePc 1).halt) := by
  rw [referenceStep, if_neg (by simp [hr])]
  simp only [if_neg (not_and.2 (fetchOverruns_eq_false.1 hf)), hl, if_neg (not_successor_above_top ho)]
  rcases hh with hh | hn
  · simp only [if_pos hh]
    rfl
  · simp only [hn, ite_self]
    rfl

theorem referenceStep_handles {b : Behaviour} {t : State} (hr : s.rs = .running)
    (hf : fetchOverruns tw s.pc = false) (hl : lookup table (s.readByte s.pc) = some d)
    (ho : successorOverruns tw s.pc d.width = false) (hh : s.readByte s.pc ≠ halt)
    (hb : handler d.mnemonic = some b)
    (ht : referenceHandler tw (s.readByte s.pc) s.pc d.mode b (s.advancePc 1) = .ok t) :
    referenceStep tw halt table handler s = (.continues, t.advancePc d.width) := by
  have ht' : referenceHandler tw (s.readByte s.pc) s.pc d.mode b { s with pc := s.pc + 1 } = .ok t := ht
  rw [referenceStep, if_neg (by simp [hr])]
  simp only [if_neg (not_and.2 (fetchOverruns_eq_false.1 hf)), hl, if_neg (not_successor_above_top ho), if_neg hh, hb,
    ht']
  rfl

/-- A handler that completes has applied an effect. -/
theorem referenceHandler_ok {opcode : Byte} {a : Addr} {mode : Mode} {b : Behaviour} {t : State}
    (h : referenceHandler tw opcode a mode b s = .ok t) : ∃ e, t = s.applyEffect b.affectsZN e := by
  rw [referenceHandler] at h
  split at h
  · exact ⟨_, (Except.ok.inj h).symm⟩
  · split at h
    · exact ⟨_, (Except.ok.inj h).symm⟩
    · cases h

/-- Everything the loop body can do to a Running engine, whatever the table: raise a fault, halt, or apply an effect and
go on. -/
theorem referenceStep_cases (hr : s.rs = .running) {r : RunOutcome × State}
    (h : referenceStep tw halt table handler s = r) :
    (∃ f t, r = referenceRaise f t) ∨ r = (.halt, (s.advancePc 1).halt) ∨
      ∃ zn e w, r = (.continues, ((s.advancePc 1).applyEffect zn e).advancePc w) := by
  rw [referenceStep, if_neg (by simp [hr])] at h
  dsimp only at h
  split at h
  · exact .inl ⟨_, _, h.symm⟩
  split at h
  · exact .inl ⟨_, _, h.symm⟩
  split at h
  · exact .inl ⟨_, _, h.symm⟩
  split at h
  · exact .inr (.inl h.symm)
  split at h
  · exact .inr (.inl h.symm)
  split at h
  · exact .inl ⟨_, _, h.symm⟩
  · next hok =>
    obtain ⟨e, rfl⟩ := referenceHandler_ok hok
    exact .inr (.inr ⟨_, e, _, h.symm⟩)

/-- What the loop body returns is told by the run state and the report before and after, whatever the table. -/
theorem referenceStep_outcome (hs : s.reportsOnlyHalted) {r : RunOutcome × State}
    (h : referenceStep tw halt table handler s = r) : stepOutcome s r.2 = r.1 ∧ r.2.reportsOnlyHalted := by
  rcases hr : s.rs with _ | _
  · obtain rfl := (referenceStep_halted hr).symm.trans h
    exact ⟨by simp [stepOutcome, hr], hs⟩
  have herr : s.err = none := Option.eq_none_iff_forall_ne_some.2 fun f hf => by simp [hs f hf] at hr
  rcases referenceStep_cases hr h with ⟨f, t, rfl⟩ | rfl | ⟨zn, e, w, rfl⟩
  · exact ⟨by simp [referenceRaise, stepOutcome, hr], fun _ _ => rfl⟩
  · exact ⟨by simp [stepOutcome, hr, herr], fun _ _ => rfl⟩
  · rw [State.applyEffect_eq]
    exact ⟨by simp [State.advancePc, stepOutcome, hr], fun f hf => nomatch herr.symm.trans hf⟩

end

/-! ### Decode and execute is the loop body (40_engine.md R81, R85, R94) -/

/-- The operand a tag makes of the byte at PC is the one the resolver fetches, and its value is the byte at the
effective address. -/
theorem fetchOperand_of_operandOfByte {mode : Mode} {s : State} {op : Operand}
    (h : operandOfByte mode (s.readByte s.pc) = some op) (tw : TopWrap) (opcode : Byte) (a : Addr) :
    fetchOperand tw opcode a s mode = .ok op ∧ op.value s = s.readByte (op.effectiveAddress s) := by
  cases mode <;> cases h <;> exact ⟨rfl, rfl⟩

/-- The operand a tag makes of the word at PC, which does not overrun, is the one the resolver fetches. -/
theorem fetchOperand_of_operandOfWord {mode : Mode} {s : State} {op : Operand}
    (h : operandOfWord mode (s.readWord s.pc) = some op) {tw : TopWrap} (hpc : tw = .fault → s.pc ≠ 0xFFFF)
    (opcode : Byte) (a : Addr) :
    fetchOperand tw opcode a s mode = .ok op ∧ op.value s = s.readByte (op.effectiveAddress s) := by
  cases mode <;> cases h <;> exact ⟨fetchOperand_fetch16_of_fits hpc _, rfl⟩

/-- A descriptor that meets the contract gives its handler the operand the resolver fetches under its tag. -/
theorem fetchOperand_of_assemble {M I : Type} {operand : I → Option Operand} {d : DescriptorOf M I} {s : State}
    {tw : TopWrap} {opcode : Byte} {i : I} {rest : List Byte} {op : Operand} (hw : d.widthAgrees = true)
    (hd : operandsAgree operand d) (ho : successorOverruns tw s.pc d.width = false)
    (ha : assemble opcode d.handler [s.readByte (s.pc + 1), s.readByte (s.pc + 2)] = .ok (i, rest))
    (hop : operand i = some op) :
    fetchOperand tw opcode s.pc (s.advancePc 1) d.mode = .ok op ∧
      op.value (s.advancePc 1) = (s.advancePc 1).readByte (op.effectiveAddress (s.advancePc 1)) := by
  rw [operandsAgree] at hd
  rcases assemble_ok ha with ⟨hh, _⟩ | ⟨make, nn, hh, rfl, hb⟩ | ⟨make, ll, hh', hh, rfl, hb⟩ <;>
    simp only [hh] at hd
  · exact nomatch hd.symm.trans hop
  · cases hb
    exact fetchOperand_of_operandOfByte (s := s.advancePc 1) ((hd _).symm.trans hop) tw opcode s.pc
  · cases hb
    have hwidth : d.width = 2 := by rw [← DescriptorOf.handler_width hw, hh]; rfl
    refine fetchOperand_of_operandOfWord (s := s.advancePc 1) (Eq.trans ?_ hop) (fun htw => ?_) opcode s.pc
    · rw [hd, State.readWord, State.advancePc_pc, BitVec.add_assoc]
      rfl
    · have hroom := successorOverruns_eq_false.1 ho htw
      rw [hwidth] at hroom
      rw [State.advancePc_pc]
      bv_omega

/-- A handler on its assembled operand is the handler that resolves the same operand for itself. -/
theorem referenceHandler_of_onOperand {b : Behaviour} {op : Option Operand} {f : State → State}
    (hf : b.onOperand op = some f) {tw : TopWrap} {opcode : Byte} {a : Addr} {mode : Mode} {s : State}
    (hop : ∀ o, op = some o → fetchOperand tw opcode a s mode = .ok o ∧ o.value s = s.readByte (o.effectiveAddress s)) :
    referenceHandler tw opcode a mode b s = .ok (f s) := by
  obtain ⟨zn, body⟩ := b
  rcases body with effect | effect
  · cases hf
    rfl
  · rcases op with _ | o
    · cases hf
    · cases hf
      obtain ⟨hfetch, hvalue⟩ := hop o rfl
      simp only [referenceHandler, resolve_of_fetchOperand_ok hfetch rfl, hvalue]

/-- The step is the loop body, case by case, where a row without a handler stands at the halt opcode only. -/
theorem paramStep_eq_referenceStep {M I : Type} (pr : Params M I) (s : State)
    (hhalt : ∀ r ∈ pr.table, pr.handler r.2.mnemonic = none → r.1 = pr.haltOpcode) :
    paramStep pr s = .next (referenceStep pr.topWrap pr.haltOpcode pr.table pr.handler s).2 := by
  rcases paramStep_cases pr s with ⟨hr, h⟩ | ⟨hr, hf, h⟩ | ⟨hr, hf, hl, h⟩ | ⟨d, i, rest, hr, hf, hl, hm, ha, _, h⟩
  · rw [h, referenceStep_halted hr]
  · rw [h, referenceStep_fetchOverrun hr hf, referenceRaise]
  · rw [h, referenceStep_unknownOpcode hr hf hl, referenceRaise]
  rcases h with ⟨ho, h⟩ | ⟨ho, hh, h⟩ | ⟨ho, hh, h⟩
  · rw [h, referenceStep_successorOverrun hr hf hl ho, referenceRaise]
  · rw [h, referenceStep_halts hr hf hl ho (.inl hh)]
  · obtain ⟨hwidth, hoperand, hruns⟩ := pr.contract _ (lookup_mem hl)
    have hmeaning := hruns i hm
    rcases hb : pr.handler d.mnemonic with _ | b
    · exact absurd (hhalt _ (lookup_mem hl) hb) hh
    · rw [hb] at hmeaning
      obtain ⟨f, hon, hexec⟩ := hmeaning
      have hhandler := referenceHandler_of_onOperand hon fun o hop =>
        fetchOperand_of_assemble hwidth hoperand ho ha hop
      rw [h, hexec, runHandler, referenceStep_handles hr hf hl ho hh hb hhandler]

/-- The host step is the loop body, state and outcome. -/
theorem paramHostStep_eq_referenceStep {M I : Type} (pr : Params M I) {s : State}
    (hhalt : ∀ r ∈ pr.table, pr.handler r.2.mnemonic = none → r.1 = pr.haltOpcode) (hs : s.reportsOnlyHalted) :
    paramHostStep pr s = referenceStep pr.topWrap pr.haltOpcode pr.table pr.handler s ∧
      (paramState pr s).reportsOnlyHalted := by
  obtain ⟨houtcome, hreports⟩ := referenceStep_outcome (handler := pr.handler) hs rfl
  have hstate := paramState_of_next (paramStep_eq_referenceStep pr s hhalt)
  rw [paramHostStep, hstate]
  exact ⟨Prod.ext houtcome rfl, hreports⟩

/-- BRK alone has no handler. -/
theorem handlerOf_eq_none {m : Mnemonic} : handlerOf m = none ↔ m = .brk := by
  cases m <;> simp [handlerOf]

/-- Settles O41: the handler works on the operand that the loop body's own handler resolves. -/
theorem stepIsRunLoopBody : Obligations.StepIsRunLoopBody := by
  refine ⟨fun M I pr s hhalt =>
    ⟨paramStep_eq_referenceStep pr s hhalt, fun hs => paramHostStep_eq_referenceStep pr hhalt hs⟩, fun tw s => ?_⟩
  have hhalt : ∀ r ∈ isetRows, handlerOf r.2.mnemonic = none → r.1 = Config.haltOpcode :=
    fun r hr hn => isetRows_brk r hr (handlerOf_eq_none.1 hn)
  exact ⟨paramStep_eq_referenceStep (Params.spec tw) s hhalt,
    fun hs => (paramHostStep_eq_referenceStep (Params.spec tw) hhalt fun f hf => (hs.2 f hf).1).1⟩

/-! ### The step over any table that meets the contract (40_engine.md R81, R94; 00_scope.md R6) -/

/-- The instruction a handler makes of the bytes after the opcode, a word low byte first. -/
theorem assemble_operand {I : Type} {b b1 b2 : Byte} {h : HandlerOf I} {i : I} {rest : List Byte}
    (ha : assemble b h [b1, b2] = .ok (i, rest)) :
    (∀ j, h = .implied j → i = j) ∧ (∀ make, h = .op8 make → i = make b1) ∧
      ∀ make, h = .op16 make → i = make (BitVec.ofNat 16 (b2.toNat * 256 + b1.toNat)) := by
  rcases assemble_ok ha with ⟨rfl, _⟩ | ⟨make, nn, rfl, rfl, hb⟩ | ⟨make, ll, hh, rfl, rfl, hb⟩
  · exact ⟨fun _ h => HandlerOf.implied.inj h, nofun, nofun⟩
  · cases hb
    exact ⟨nofun, fun _ h => by cases h; rfl, nofun⟩
  · cases hb
    exact ⟨nofun, nofun, fun _ h => by cases h; rw [word16_eq]⟩

/-- What an effect between the two advances of PC leaves alone, and what Z and N are after it. -/
theorem applyEffect_frame (b : Behaviour) (e : Effect) (w : Nat) (s : State) :
    let t := ((s.advancePc 1).applyEffect b.affectsZN e).advancePc w
    t.pc = s.pc + BitVec.ofNat 16 (1 + w) ∧ t.sp = s.sp ∧ t.rs = s.rs ∧ t.err = s.err ∧
      (b.affectsZN = false → t.p.getLsbD 1 = s.p.getLsbD 1 ∧ t.p.getLsbD 7 = s.p.getLsbD 7) ∧
      (b.affectsZN = true → DescribesResult t.p e.result) := by
  obtain ⟨hz, hn⟩ := State.applyEffect_zn b.affectsZN e (s.advancePc 1)
  have hframe := State.applyEffect_eq b.affectsZN e (s.advancePc 1)
  refine ⟨?_, ?_, ?_, ?_, fun hzn => ?_, fun hzn => ?_⟩
  · rw [State.advancePc_pc, hframe, BitVec.ofNat_add, ← BitVec.add_assoc]
    rfl
  · rw [State.advancePc_sp, hframe]
    rfl
  · rw [State.advancePc_rs, hframe]
    rfl
  · rw [State.advancePc_err, hframe]
    rfl
  · rw [hzn] at hz hn ⊢
    exact ⟨hz, hn⟩
  · rw [hzn] at hz hn ⊢
    exact ⟨hz, hn.trans (BitVec.msb_eq_getLsbD_last _)⟩

/-- Settles O60: each clause is the equation of its case of a step, and of the loop body at a halt row. -/
theorem stepOverAnyTable : Obligations.StepOverAnyTable := by
  refine ⟨fun M I pr s hr => ⟨fun htop => ?_, fun hpc hl => ?_, fun d hpc hl => ⟨fun hover => ?_, fun hroom => ?_⟩⟩,
    fun tw => ⟨rfl, rfl, rfl, rfl, fun _ => handlerOf_eq_none⟩, fun _ _ => ⟨rfl, rfl⟩⟩
  · exact paramStep_fetchOverrun hr (fetchOverruns_eq_true.2 htop)
  · exact paramStep_unknownOpcode hr (fetchOverruns_eq_false.2 hpc) hl
  · exact paramStep_successorOverrun hr (fetchOverruns_eq_false.2 hpc) hl (successorOverruns_eq_true.2 hover)
  have hf := fetchOverruns_eq_false.2 hpc
  have ho := successorOverruns_eq_false.2 hroom
  refine ⟨paramStep_haltOpcode hr hf hl ho, fun hh => ?_⟩
  obtain ⟨i, rest, ha⟩ := assemble_two (s.readByte s.pc) d.handler (s.readByte (s.pc + 1)) (s.readByte (s.pc + 2))
  have hstep := paramStep_executes hr hf hl ho hh ha
  obtain ⟨_, _, hruns⟩ := pr.contract _ (lookup_mem hl)
  refine ⟨⟨i, hstep, assemble_operand ha⟩, fun hnone => ⟨?_, ?_⟩, fun b hb => ?_⟩
  · rcases (hruns i (assemble_makes ha)).next s with ⟨_, hexec⟩ | ⟨b, _, hb, _⟩
    · exact hstep.trans hexec
    · exact nomatch hnone.symm.trans hb
  · exact referenceStep_halts hr hf hl ho (.inr hnone)
  · rcases (hruns i (assemble_makes ha)).next s with ⟨hnone, _⟩ | ⟨b', e, hb', hexec⟩
    · exact nomatch hnone.symm.trans hb
    · obtain rfl := Option.some.inj (hb.symm.trans hb')
      obtain ⟨hpc, hsp, hrs, herr, hkept, hdescribes⟩ := applyEffect_frame b e d.width s
      exact ⟨_, hstep.trans hexec, hpc, hsp, hrs.trans hr, herr, hkept, fun hzn => ⟨e.result, hdescribes hzn⟩⟩

/-! ### What a completed step leaves (40_engine.md R81, R84) -/

/-- What an instruction does to the state that steers a run: PC goes past it, memory and the report are kept, and the
halt alone writes the run state. -/
theorem exec_control (i : Instr) (s : State) :
    ∃ t, exec i s = .next t ∧ t.pc = s.pc + BitVec.ofNat 16 (1 + i.width) ∧ t.mem = s.mem ∧ t.err = s.err ∧
      t.rs = if i = .brk then .halted else s.rs := by
  have hpc (w : Nat) : s.pc + BitVec.ofNat 16 1 + BitVec.ofNat 16 w = s.pc + BitVec.ofNat 16 (1 + w) := by
    rw [BitVec.ofNat_add, BitVec.add_assoc]
  rcases exec_cases i s with ⟨op, _, hm, h⟩ | ⟨op, _, hm, h⟩ | ⟨rfl, h⟩ | ⟨rfl, h⟩ | ⟨rfl, h⟩
  · have hi : i ≠ .brk := by rintro rfl; cases hm
    exact ⟨_, h.trans (runHandler_load i.width op s), hpc _, rfl, rfl, (if_neg hi).symm⟩
  · have hi : i ≠ .brk := by rintro rfl; cases hm
    exact ⟨_, h.trans (runHandler_compare i.width op s), hpc _, rfl, rfl, (if_neg hi).symm⟩
  · exact ⟨_, h, hpc 0, rfl, rfl, rfl⟩
  · exact ⟨_, h, hpc 0, rfl, rfl, rfl⟩
  · exact ⟨_, h, rfl, rfl, rfl, rfl⟩

/-- A step of a Running engine stops it with a report, or completes the instruction whose opcode byte is at PC. -/
theorem stepState_of_running (tw : TopWrap) {s : State} (hr : s.rs = .running) :
    (∃ f, (stepState tw s).rs = .halted ∧ (stepState tw s).err = some f) ∨
      ∃ i : Instr, i.opcode = s.readByte s.pc ∧ successorOverruns tw s.pc i.width = false ∧
        (stepState tw s).pc = s.pc + BitVec.ofNat 16 (1 + i.width) ∧ (stepState tw s).mem = s.mem ∧
        (stepState tw s).err = s.err ∧ (stepState tw s).rs = if i = .brk then .halted else .running := by
  rcases engineStep_cases tw s with ⟨hh, _⟩ | ⟨_, _, h⟩ | ⟨_, _, _, h⟩ | ⟨_, _, _, _, _, _, h⟩ |
    ⟨i, rest, _, _, hd, ho, h⟩
  · exact nomatch hr.symm.trans hh
  · exact .inl ⟨_, by rw [stepState_of_next h]; exact ⟨rfl, rfl⟩⟩
  · exact .inl ⟨_, by rw [stepState_of_next h]; exact ⟨rfl, rfl⟩⟩
  · exact .inl ⟨_, by rw [stepState_of_next h]; exact ⟨rfl, rfl⟩⟩
  · obtain ⟨t, ht, hpc, hmem, herr, hrs⟩ := exec_control i s
    rw [stepState_of_next (h.trans ht)]
    rw [hr] at hrs
    exact .inr ⟨i, (decode_cons hd).1, ho, hpc, hmem, herr, hrs⟩

theorem stepState_halted {tw : TopWrap} {s : State} (hr : s.rs = .halted) : stepState tw s = s :=
  stepState_of_next (engineStep_halted hr)

theorem stepOutcome_eq_continues {s t : State} :
    stepOutcome s t = .continues ↔ s.rs = .running ∧ t.rs = .running := by
  rcases hs : s.rs with _ | _ <;> rcases ht : t.rs with _ | _ <;> rcases he : t.err with _ | f <;>
    simp [stepOutcome, hs, ht, he]

theorem stepOutcome_eq_halt {s t : State} :
    stepOutcome s t = .halt ↔ s.rs = .running ∧ t.rs = .halted ∧ t.err = none := by
  rcases hs : s.rs with _ | _ <;> rcases ht : t.rs with _ | _ <;> rcases he : t.err with _ | f <;>
    simp [stepOutcome, hs, ht, he]

theorem stepOutcome_eq_fault {s t : State} {f : FaultReport} :
    stepOutcome s t = .fault f ↔ s.rs = .running ∧ t.rs = .halted ∧ t.err = some f := by
  rcases hs : s.rs with _ | _ <;> rcases ht : t.rs with _ | _ <;> rcases he : t.err with _ | g <;>
    simp [stepOutcome, hs, ht, he]

/-- The operand width by opcode byte, in the rows of the table. -/
theorem isetRows_width : ∀ r ∈ isetRows,
    (r.1 ∈ ([0x00, 0xAA, 0xE8] : List Byte) → r.2.width = 0) ∧
    (r.1 ∈ ([0xA9, 0xA5, 0xB5, 0xA1, 0xB1, 0xC9, 0xC5, 0xD5, 0xC1, 0xD1] : List Byte) → r.2.width = 1) ∧
    (r.1 ∈ ([0xAD, 0xBD, 0xB9, 0xCD, 0xDD, 0xD9] : List Byte) → r.2.width = 2) := by decide

/-- Settles O36: a step that returns Continue or Halt has raised nothing, so PC went past the instruction whose row the
opcode byte names. -/
theorem completedStepAdvancesPc : Obligations.CompletedStepAdvancesPc := by
  intro tw s t o hstep ho
  rw [hostStep_eq, Prod.mk.injEq] at hstep
  obtain ⟨rfl, rfl⟩ := hstep
  rw [stepOutcome_eq_continues, stepOutcome_eq_halt] at ho
  have hr : s.rs = .running := ho.elim And.left And.left
  rcases stepState_of_running tw hr with ⟨f, hrs, herr⟩ | ⟨i, hop, _, hpc, _⟩
  · simp [hrs, herr] at ho
  · obtain ⟨d, hd, hw⟩ := exists_iset_opcode i
    obtain ⟨h0, h1, h2⟩ := isetRows_width _ (iset_mem hd)
    rw [← hop, hpc, ← hw]
    exact ⟨fun h => by rw [h0 h]; rfl, fun h => by rw [h1 h]; rfl, fun h => by rw [h2 h]; rfl⟩

/-! ### How a run ends (40_engine.md R82, R92, R93) -/

theorem runFor_succ_of_continues {tw : TopWrap} {s : State} (n : Nat)
    (h : stepOutcome s (stepState tw s) = .continues) : runFor tw (n + 1) s = runFor tw n (stepState tw s) := by
  rw [runFor_succ, hostStep_eq, h]

theorem runFor_succ_of_stops {tw : TopWrap} {s : State} (n : Nat)
    (h : stepOutcome s (stepState tw s) ≠ .continues) : runFor tw (n + 1) s = some (hostStep tw s) := by
  rw [runFor_succ, hostStep_eq]
  cases ho : stepOutcome s (stepState tw s)
  case continues => exact absurd ho h
  all_goals rfl

/-- Under `TOP_WRAP = fault` an instruction that goes on has its successor address above its own. -/
theorem pc_lt_stepState_pc {s : State} (hr : s.rs = .running) (ht : (stepState .fault s).rs = .running) :
    s.pc.toNat < (stepState .fault s).pc.toNat := by
  rcases stepState_of_running .fault hr with ⟨_, hh, _⟩ | ⟨i, _, ho, hpc, _⟩
  · exact nomatch hh.symm.trans ht
  · have hroom := successorOverruns_eq_false.1 ho rfl
    rw [hpc, BitVec.toNat_add, BitVec.toNat_ofNat]
    omega

/-- Under `TOP_WRAP = fault` a run returns within as many steps as there are addresses from PC on. -/
theorem runFor_returns (n : Nat) (s : State) (hn : 65536 ≤ n + s.pc.toNat) :
    ∃ o t, runFor .fault n s = some (o, t) ∧ o ≠ .continues ∧ t.rs = .halted := by
  induction n generalizing s with
  | zero =>
    have := s.pc.isLt
    omega
  | succ n ih =>
    by_cases hc : stepOutcome s (stepState .fault s) = .continues
    · obtain ⟨hr, ht⟩ := stepOutcome_eq_continues.1 hc
      have hpc := pc_lt_stepState_pc hr ht
      rw [runFor_succ_of_continues n hc]
      exact ih _ (by omega)
    · refine ⟨_, _, runFor_succ_of_stops n hc, hc, ?_⟩
      show (stepState .fault s).rs = .halted
      rcases hr : s.rs with _ | _
      · rw [stepState_halted hr, hr]
      · rcases ht : (stepState .fault s).rs with _ | _
        · rfl
        · exact absurd (stepOutcome_eq_continues.2 ⟨hr, ht⟩) hc

/-- Settles O45: PC rises while the engine runs, and there are 65 536 addresses. -/
theorem everyRunEnds : Obligations.EveryRunEnds := by
  refine ⟨fun s t hr hstep ht => ?_, fun s => runFor_returns 65536 s (Nat.le_add_right _ _)⟩
  have hstate : stepState .fault s = t := stepState_of_next hstep
  rw [← hstate] at ht ⊢
  exact pc_lt_stepState_pc hr ht

/-- A run of a Running engine without a report ends by the byte 0x00 or by a fault: an instruction that goes on leaves
it Running without a report. -/
theorem runFor_ends {tw : TopWrap} {n : Nat} {s t : State} {o : RunOutcome} (hr : s.rs = .running)
    (herr : s.err = none) (hrun : runFor tw n s = some (o, t)) :
    (o = .halt ∧ t.final ∧ t.readByte (t.pc - 1) = 0x00) ∨ ∃ f, o = .fault f ∧ t.err = some f ∧ t.faulted := by
  induction n generalizing s with
  | zero => cases hrun
  | succ n ih =>
    rcases stepState_of_running tw hr with ⟨f, hrs', herr'⟩ | ⟨i, hop, _, hpc, hmem, herr', hrs'⟩
    · have ho := stepOutcome_eq_fault.2 ⟨hr, hrs', herr'⟩
      rw [runFor_succ_of_stops n (by rw [ho]; nofun), hostStep_eq, ho] at hrun
      cases hrun
      exact .inr ⟨f, rfl, herr', hrs', f, herr'⟩
    rw [herr] at herr'
    by_cases hi : i = .brk
    · rw [if_pos hi] at hrs'
      have ho := stepOutcome_eq_halt.2 ⟨hr, hrs', herr'⟩
      rw [runFor_succ_of_stops n (by rw [ho]; nofun), hostStep_eq, ho] at hrun
      cases hrun
      refine .inl ⟨rfl, ⟨hrs', herr'⟩, ?_⟩
      subst hi
      rw [hpc, State.readByte, hmem]
      show s.readByte (s.pc + 1 - 1) = 0x00
      rw [BitVec.add_sub_cancel, ← hop]
      rfl
    · rw [if_neg hi] at hrs'
      rw [runFor_succ_of_continues n (stepOutcome_eq_continues.2 ⟨hr, hrs'⟩)] at hrun
      exact ih hrs' herr' hrun

/-- Settles O46: the invariant gives a Running engine no report. -/
theorem runEndsByHaltOrFault : Obligations.RunEndsByHaltOrFault := by
  intro tw n s t o hs hr hrun
  have herr : s.err = none := Option.eq_none_iff_forall_ne_some.2 fun f hf => nomatch hr.symm.trans (hs.2 f hf).1
  exact runFor_ends hr herr hrun

/-! ### What a step may depend on (40_engine.md R85, R90) -/

/-- Each bit of two status bytes is kept in both, or the same in both afterwards. -/
def BitsKeptOrAlike (p p' q q' : Byte) : Prop :=
  ∀ k, (p'.getLsbD k = p.getLsbD k ∧ q'.getLsbD k = q.getLsbD k) ∨ q'.getLsbD k = p'.getLsbD k

theorem BitsKeptOrAlike.refl (p q : Byte) : BitsKeptOrAlike p p q q := fun _ => .inl ⟨rfl, rfl⟩

theorem BitsKeptOrAlike.trans {p p' p'' q q' q'' : Byte} (h : BitsKeptOrAlike p p' q q')
    (h' : BitsKeptOrAlike p' p'' q' q'') : BitsKeptOrAlike p p'' q q'' := by
  intro k
  rcases h' k with ⟨hp', hq'⟩ | h'
  · rcases h k with ⟨hp, hq⟩ | h
    · exact .inl ⟨hp'.trans hp, hq'.trans hq⟩
    · exact .inr (hq'.trans (h.trans hp'.symm))
  · exact .inr h'

/-- Every bit of a status byte is a named one. -/
theorem exists_flag_bit {k : Nat} (hk : k < 8) : ∃ g : Flag, g.bit = k := by
  match k, hk with
  | 0, _ => exact ⟨.carry, rfl⟩
  | 1, _ => exact ⟨.zero, rfl⟩
  | 2, _ => exact ⟨.interruptDisable, rfl⟩
  | 3, _ => exact ⟨.decimalMode, rfl⟩
  | 4, _ => exact ⟨.breakCommand, rfl⟩
  | 5, _ => exact ⟨.unused, rfl⟩
  | 6, _ => exact ⟨.overflow, rfl⟩
  | 7, _ => exact ⟨.negative, rfl⟩

theorem flagWrite_bitsKeptOrAlike (p q : Byte) (f : Flag) (b : Bool) :
    BitsKeptOrAlike p (flagWrite p f b) q (flagWrite q f b) := by
  intro k
  rcases Nat.lt_or_ge k 8 with hk | hk
  · obtain ⟨g, rfl⟩ := exists_flag_bit hk
    simp only [flagWrite_getLsbD]
    by_cases hg : g = f
    · exact .inr (by rw [if_pos hg, if_pos hg])
    · exact .inl (by rw [if_neg hg, if_neg hg]; exact ⟨rfl, rfl⟩)
  · exact .inr (by rw [BitVec.getLsbD_of_ge _ k hk, BitVec.getLsbD_of_ge _ k hk])

theorem State.setZN_bitsKeptOrAlike (s u : State) (r : Byte) :
    BitsKeptOrAlike s.p (s.setZN r).p u.p (u.setZN r).p :=
  (flagWrite_bitsKeptOrAlike _ _ _ _).trans (flagWrite_bitsKeptOrAlike _ _ _ _)

/-- No operand reads a flag. -/
theorem Operand.value_withP (op : Operand) (s : State) (q : Byte) : op.value { s with p := q } = op.value s := by
  cases op <;> rfl

/-- A compare of equal registers writes its three flags alike. -/
theorem State.compare_withP (s : State) (q m : Byte) :
    BitsKeptOrAlike s.p (s.compare m).p q (State.compare m { s with p := q }).p :=
  (flagWrite_bitsKeptOrAlike _ _ _ _).trans (State.setZN_bitsKeptOrAlike _ _ _)

/-- What a load does, from every state. -/
theorem exec_of_lda {i : Instr} {op : Operand} (hm : i.mnemonic = .lda) (hop : instrOperand i = some op) (s : State) :
    exec i s = .next { s with a := op.value s, p := (s.setZN (op.value s)).p,
                              pc := s.pc + BitVec.ofNat 16 1 + BitVec.ofNat 16 i.width } := by
  rcases exec_cases i s with ⟨op', hop', _, h⟩ | ⟨_, _, hm', _⟩ | ⟨rfl, _⟩ | ⟨rfl, _⟩ | ⟨rfl, _⟩
  · obtain rfl := Option.some.inj (hop.symm.trans hop')
    exact h.trans (runHandler_load i.width op s)
  · exact nomatch hm.symm.trans hm'
  all_goals cases hop

/-- What a compare does, from every state. -/
theorem exec_of_cmp {i : Instr} {op : Operand} (hm : i.mnemonic = .cmp) (hop : instrOperand i = some op) (s : State) :
    exec i s = .next { s with p := (s.compare (op.value s)).p,
                              pc := s.pc + BitVec.ofNat 16 1 + BitVec.ofNat 16 i.width } := by
  rcases exec_cases i s with ⟨_, _, hm', _⟩ | ⟨op', hop', _, h⟩ | ⟨rfl, _⟩ | ⟨rfl, _⟩ | ⟨rfl, _⟩
  · exact nomatch hm.symm.trans hm'
  · obtain rfl := Option.some.inj (hop.symm.trans hop')
    exact h.trans (runHandler_compare i.width op s)
  all_goals cases hop

/-- No meaning reads a flag. -/
theorem exec_withP (i : Instr) (s : State) (q : Byte) :
    ∃ t q', exec i s = .next t ∧ exec i { s with p := q } = .next { t with p := q' } ∧
      BitsKeptOrAlike s.p t.p q q' := by
  have hZN (r : Byte) := State.setZN_bitsKeptOrAlike s { s with p := q } r
  rcases exec_cases i s with ⟨op, hop, hm, _⟩ | ⟨op, hop, hm, _⟩ | ⟨rfl, h⟩ | ⟨rfl, h⟩ | ⟨rfl, h⟩
  · rw [exec_of_lda hm hop, exec_of_lda hm hop, Operand.value_withP]
    exact ⟨_, _, rfl, rfl, hZN _⟩
  · rw [exec_of_cmp hm hop, exec_of_cmp hm hop, Operand.value_withP]
    exact ⟨_, _, rfl, rfl, State.compare_withP s q _⟩
  · exact ⟨_, _, h, rfl, hZN _⟩
  · exact ⟨_, _, h, rfl, hZN _⟩
  · exact ⟨_, q, h, rfl, .refl _ _⟩

/-- No step reads a flag: each case of a step has its premises of the state with another P too. -/
theorem engineStep_withP (tw : TopWrap) (s : State) (q : Byte) :
    ∃ t q', engineStep tw s = .next t ∧ engineStep tw { s with p := q } = .next { t with p := q' } ∧
      BitsKeptOrAlike s.p t.p q q' := by
  rcases engineStep_cases tw s with ⟨hr, h⟩ | ⟨hr, hf, h⟩ | ⟨hr, hf, ⟨e, hd⟩, h⟩ | ⟨i, rest, hr, hf, hd, ho, h⟩ |
    ⟨i, rest, hr, hf, hd, ho, h⟩
  · exact ⟨_, q, h, engineStep_halted (s := { s with p := q }) hr, .refl _ _⟩
  · exact ⟨_, q, h, engineStep_fetchOverrun (s := { s with p := q }) hr hf, .refl _ _⟩
  · exact ⟨_, q, h, engineStep_decodeError (s := { s with p := q }) hr hf hd, .refl _ _⟩
  · exact ⟨_, q, h, engineStep_successorOverrun (s := { s with p := q }) hr hf hd ho, .refl _ _⟩
  · rw [h, engineStep_executes (s := { s with p := q }) hr hf hd ho]
    exact exec_withP i s q

/-- Settles O48: a step writes its flags from the registers and memory alone. -/
theorem flagsSteerNothing : Obligations.FlagsSteerNothing := engineStep_withP

section
variable {s : State} {m : Memory}

/-- The addresses an operand reads, pointer bytes and data byte, are all its value depends on. -/
theorem Operand.value_withMem {op : Operand}
    (h : ∀ q ∈ pointerAddresses s op ++ dataAddresses s op, memRead m q.toNat = s.readByte q) :
    op.value { s with mem := m } = op.value s := by
  have hpointer (p : Byte) (hlow : memRead m (zext16 p).toNat = s.readByte (zext16 p))
      (hhigh : memRead m (zext16 (p + 1)).toNat = s.readByte (zext16 (p + 1))) :
      zeroPagePointer p { s with mem := m } = zeroPagePointer p s :=
    congrArg₂ word16 hlow hhigh
  cases op with
  | immediate nn => rfl
  | indirectX nn | indirectY nn =>
    simp only [pointerAddresses, dataAddresses, List.cons_append, List.nil_append, List.forall_mem_cons] at h
    obtain ⟨hlow, hhigh, hdata, _⟩ := h
    simp only [Operand.value, Operand.effectiveAddress] at hdata ⊢
    rw [hpointer _ hlow hhigh]
    exact hdata
  | _ => exact h _ (List.mem_singleton.2 rfl)

/-- The addresses an instruction reads after its opcode byte are all its meaning depends on. -/
theorem exec_withMem {i : Instr} (h : ∀ q ∈ instrAccesses i s, memRead m q.toNat = s.readByte q) :
    ∃ t, exec i s = .next t ∧ exec i { s with mem := m } = .next { t with mem := m } := by
  have hvalue {op : Operand} (hop : instrOperand i = some op) : op.value { s with mem := m } = op.value s := by
    refine Operand.value_withMem fun q hq => h q (List.mem_append_right _ ?_)
    rw [hop]
    exact hq
  rcases exec_cases i s with ⟨op, hop, hm, _⟩ | ⟨op, hop, hm, _⟩ | ⟨rfl, h⟩ | ⟨rfl, h⟩ | ⟨rfl, h⟩
  · rw [exec_of_lda hm hop, exec_of_lda hm hop, hvalue hop]
    exact ⟨_, rfl, rfl⟩
  · rw [exec_of_cmp hm hop, exec_of_cmp hm hop, hvalue hop]
    exact ⟨_, rfl, rfl⟩
  · exact ⟨_, h, rfl⟩
  · exact ⟨_, h, rfl⟩
  · exact ⟨_, h, rfl⟩

theorem stepAccesses_of_running (tw : TopWrap) (hr : s.rs = .running) : s.pc ∈ stepAccesses tw s := by
  simp [stepAccesses, hr]

theorem stepAccesses_of_executes {tw : TopWrap} {i : Instr} {rest : List Byte} (hr : s.rs = .running)
    (hf : fetchOverruns tw s.pc = false) (hd : decode s.fetchWindow = .ok (i, rest))
    (ho : successorOverruns tw s.pc i.width = false) : stepAccesses tw s = s.pc :: instrAccesses i s := by
  simp [stepAccesses, hr, hf, hd, ho]

/-- The operand bytes of an instruction are among its accesses. -/
theorem operandAddress_mem_instrAccesses {i : Instr} {k : Nat} (hk : k < i.width) :
    s.pc + 1 + BitVec.ofNat 16 k ∈ instrAccesses i s :=
  List.mem_append_left _ (List.mem_map.2 ⟨k, List.mem_range.2 hk, rfl⟩)

end

/-- Settles O50: each case of a step is chosen by the bytes it reads, and the instruction assembled depends on no
others. -/
theorem stepReadsOnlyItsAccesses : Obligations.StepReadsOnlyItsAccesses := by
  intro tw s m h
  rcases paramStep_cases (Params.spec tw) s with ⟨hr, hs⟩ | ⟨hr, hf, hs⟩ | ⟨hr, hf, hl, hs⟩ |
    ⟨d, i, rest, hr, hf, hl, hm, ha, hd, hs⟩
  · exact ⟨_, hs, paramStep_halted (s := { s with mem := m }) hr⟩
  all_goals have hop : memRead m s.pc.toNat = s.readByte s.pc := h _ (stepAccesses_of_running tw hr)
  all_goals rw [← hop] at hs
  · exact ⟨_, hs, paramStep_fetchOverrun (s := { s with mem := m }) hr hf⟩
  all_goals rw [← hop] at hl
  · exact ⟨_, hs, paramStep_unknownOpcode (s := { s with mem := m }) hr hf hl⟩
  rcases hs with ⟨ho, hs⟩ | ⟨ho, hh, hs⟩ | ⟨ho, hh, hs⟩
  · exact ⟨_, hs, paramStep_successorOverrun (s := { s with mem := m }) hr hf hl ho⟩
  · exact ⟨_, hs, paramStep_haltOpcode (s := { s with mem := m }) hr hf hl ho hh⟩
  · obtain ⟨_, hw, _⟩ := isetRows_makes (lookup_mem hl) hm
    have hwidth := (DescriptorOf.handler_width (isetRows_contract _ (lookup_mem hl)).1).trans hw.symm
    have haccesses := stepAccesses_of_executes (tw := tw) hr hf hd (by rw [hw]; exact ho)
    rw [haccesses, List.forall_mem_cons] at h
    have hoperand (k : Nat) (hk : k + 1 ≤ d.handler.width) :
        memRead m (s.pc + 1 + BitVec.ofNat 16 k).toNat = s.readByte (s.pc + 1 + BitVec.ofNat 16 k) :=
      h.2 _ (operandAddress_mem_instrAccesses (hwidth ▸ hk))
    obtain ⟨rest', ha'⟩ := assemble_congr ha (c1 := memRead m (s.pc + 1).toNat) (c2 := memRead m (s.pc + 2).toNat)
      (fun hk => by simpa using hoperand 0 hk) (fun hk => by simpa [BitVec.add_assoc] using hoperand 1 hk)
    rw [← hop] at ha'
    have hs' : engineStep tw { s with mem := m } = exec i { s with mem := m } :=
      paramStep_executes (s := { s with mem := m }) hr hf hl ho hh ha'
    rw [hs']
    obtain ⟨t, ht, ht'⟩ := exec_withMem h.2
    exact ⟨t, hs.trans ht, ht'⟩

/-! ### The decoded instruction and the Halted engine (40_engine.md R81, R83) -/

/-- Settles O28: with room for the successor there is room for the fetch, and a step that raises nothing is `exec`. -/
theorem stepRunsDecodedInstruction : Obligations.StepRunsDecodedInstruction := by
  intro tw s i rest hr hd hroom
  have hf : fetchOverruns tw s.pc = false := fetchOverruns_eq_false.2 fun htw => by
    have := hroom htw
    bv_omega
  have hstep : engineStep tw s = exec i s := engineStep_executes hr hf hd (successorOverruns_eq_false.2 hroom)
  exact ⟨hstep, fun htw => by subst htw; exact hstep⟩

theorem hostStep_halted {tw : TopWrap} {s : State} (hr : s.rs = .halted) : hostStep tw s = (.alreadyHalted, s) := by
  rw [hostStep_eq, stepState_halted hr]
  simp [stepOutcome, hr]

theorem hostWrite_rs {tw : TopWrap} {w : HostWrite} {s t : State} (h : hostWrite tw w s = .ok t) : t.rs = s.rs := by
  rcases hostWrite_ok h with ht | ⟨q, v, _, rfl⟩ | ⟨q, v, _, rfl⟩
  · rw [ht]
  · rfl
  · rfl

theorem load_rs {image : List Byte} {s t : State} (h : load image s = .ok t) : t.rs = s.rs := by
  rw [load_changes_memory_only h]

/-- Settles O29: the step and the run leave a Halted engine as it is, and no write of the host names the run state. -/
theorem haltedEngineDoesNothing : Obligations.HaltedEngineDoesNothing := by
  intro tw s hr
  refine ⟨engineStep_halted hr, hostStep_halted hr, fun n => ?_, ?_, rfl, fun w t h => (hostWrite_rs h).trans hr,
    fun image t h => (load_rs h).trans hr⟩
  · rw [runFor_succ, hostStep_halted hr]
  · rw [stepAccesses, hr]

end Machine

end Sys2Proof
end

section
/-! PROOFS. The statements of 41_load.md: the eight load forms from every state, what each of the 19 instructions leaves
unchanged, and so what a run leaves unchanged. -/

namespace Sys2Proof

/-! ### A 16-bit operand of two bytes (20_memory.md R37, 30_encoding.md R55) -/

theorem bytesOf16_ofNat (ll hh : Byte) : bytesOf16 (BitVec.ofNat 16 (hh.toNat * 256 + ll.toNat)) = [ll, hh] := by
  rw [← word16_eq, bytesOf16, lowByte_word16, highByte_word16]

theorem operand16_toNat (ll hh : Byte) :
    (BitVec.ofNat 16 (hh.toNat * 256 + ll.toNat)).toNat = hh.toNat * 256 + ll.toNat := by
  rw [← word16_eq, word16_toNat]

namespace Machine

/-! ### The byte each operand form names, in plain numbers (30_encoding.md R63 to R70) -/

theorem readByte_absoluteIndexed (base : Addr) (index : Byte) (s : State) :
    s.readByte (absoluteIndexed base index) = byteAt (base.toNat + index.toNat) s := by
  rw [absoluteIndexed_eq, byteAt]

theorem zeroPagePointer_toNat (p : Byte) (s : State) : (zeroPagePointer p s).toNat = zeroPageNumber p.toNat s := by
  rw [zeroPagePointer_eq, BitVec.toNat_ofNat, Nat.mod_eq_of_lt (zeroPageNumber_lt _ s)]

theorem byteAt_toNat (a : Addr) (s : State) : byteAt a.toNat s = s.readByte a := by
  rw [byteAt, Nat.mod_eq_of_lt a.isLt, BitVec.ofNat_toNat, BitVec.setWidth_eq]

theorem Operand.value_zeroPage (nn : Byte) (s : State) :
    (Operand.zeroPage nn).value s = zeroPageByte nn.toNat s := by
  rw [zeroPageByte, Nat.mod_eq_of_lt nn.isLt, ← zext16_eq]
  rfl

theorem Operand.value_zeroPageX (nn : Byte) (s : State) :
    (Operand.zeroPageX nn).value s = zeroPageByte (nn.toNat + s.x.toNat) s := by
  rw [zeroPageByte, ← zeroPageIndexed_eq]
  rfl

theorem Operand.value_absolute (nnnn : Addr) (s : State) :
    (Operand.absolute nnnn).value s = byteAt nnnn.toNat s :=
  (byteAt_toNat nnnn s).symm

theorem Operand.value_absoluteX (nnnn : Addr) (s : State) :
    (Operand.absoluteX nnnn).value s = byteAt (nnnn.toNat + s.x.toNat) s :=
  readByte_absoluteIndexed nnnn s.x s

theorem Operand.value_absoluteY (nnnn : Addr) (s : State) :
    (Operand.absoluteY nnnn).value s = byteAt (nnnn.toNat + s.y.toNat) s :=
  readByte_absoluteIndexed nnnn s.y s

theorem Operand.value_indirectX (nn : Byte) (s : State) :
    (Operand.indirectX nn).value s = byteAt (zeroPageNumber (nn.toNat + s.x.toNat) s) s := by
  rw [← zeroPageNumber_mod, ← BitVec.toNat_add, ← zeroPagePointer_toNat, byteAt_toNat]
  rfl

theorem Operand.value_indirectY (nn : Byte) (s : State) :
    (Operand.indirectY nn).value s = byteAt (zeroPageNumber nn.toNat s + s.y.toNat) s := by
  rw [← zeroPagePointer_toNat, ← readByte_absoluteIndexed]
  rfl

/-! ### The load forms (41_load.md R100 to R108) -/

/-- A load form loads the value of its operand: A, Z and N take it, and PC goes past the encoding. -/
theorem loadsByte_of_operand {i : Instr} {op : Operand} {bytes : List Byte} {value : State → Byte}
    (hm : i.mnemonic = .lda) (hop : instrOperand i = some op) (hbytes : encode i = bytes)
    (hvalue : ∀ s, op.value s = value s) : LoadsByte i bytes value := by
  subst hbytes
  refine ⟨decode_encode_append i, fun s => ?_⟩
  rw [exec_of_lda hm hop, State.setZN_eq_statusAfterResult, hvalue, encode_length, BitVec.ofNat_add, BitVec.add_assoc]

/-- Settles O5: the operand byte is the value. -/
theorem ldaImmediateResult : Obligations.LdaImmediateResult :=
  fun _ => loadsByte_of_operand rfl rfl rfl fun _ => rfl

/-- Settles O6: the operand byte is a zero-page address. -/
theorem ldaZeroPageResult : Obligations.LdaZeroPageResult :=
  fun nn => loadsByte_of_operand rfl rfl rfl (Operand.value_zeroPage nn)

/-- Settles O7: the sum with X stays in the zero page. -/
theorem ldaZeroPageXResult : Obligations.LdaZeroPageXResult :=
  fun nn => loadsByte_of_operand rfl rfl rfl (Operand.value_zeroPageX nn)

/-- Settles O8: the two operand bytes are the address, low byte first. -/
theorem ldaAbsoluteResult : Obligations.LdaAbsoluteResult := fun ll hh =>
  loadsByte_of_operand rfl rfl (congrArg (0xAD :: ·) (bytesOf16_ofNat ll hh)) fun s => by
    rw [Operand.value_absolute, operand16_toNat]

/-- Settles O9: the sum with X is an address mod 65536. -/
theorem ldaAbsoluteXResult : Obligations.LdaAbsoluteXResult := fun ll hh =>
  loadsByte_of_operand rfl rfl (congrArg (0xBD :: ·) (bytesOf16_ofNat ll hh)) fun s => by
    rw [Operand.value_absoluteX, operand16_toNat]

/-- Settles O10: the sum with Y is an address mod 65536. -/
theorem ldaAbsoluteYResult : Obligations.LdaAbsoluteYResult := fun ll hh =>
  loadsByte_of_operand rfl rfl (congrArg (0xB9 :: ·) (bytesOf16_ofNat ll hh)) fun s => by
    rw [Operand.value_absoluteY, operand16_toNat]

/-- Settles O11: the pointer stands in the zero page at the sum with X. -/
theorem ldaIndirectXResult : Obligations.LdaIndirectXResult :=
  fun nn => loadsByte_of_operand rfl rfl rfl (Operand.value_indirectX nn)

/-- Settles O12: Y is added to the pointer that stands in the zero page. -/
theorem ldaIndirectYResult : Obligations.LdaIndirectYResult :=
  fun nn => loadsByte_of_operand rfl rfl rfl (Operand.value_indirectY nn)

/-! ### The frame of an instruction (10_state.md R16, 40_engine.md R86, 44_compare.md R120) -/

/-- Writing a flag keeps every bit but its own, by the number of the bit. -/
theorem flagWrite_getLsbD_of_ne {f : Flag} {k : Nat} (hk : k ≠ f.bit) (p : Byte) (b : Bool) :
    (flagWrite p f b).getLsbD k = p.getLsbD k := by
  rcases Nat.lt_or_ge k 8 with hlt | hge
  · obtain ⟨g, rfl⟩ := exists_flag_bit hlt
    rw [flagWrite_getLsbD, if_neg (ne_of_apply_ne Flag.bit hk)]
  · rw [BitVec.getLsbD_of_ge _ k hge, BitVec.getLsbD_of_ge _ k hge]

theorem State.setZN_getLsbD_of_ne {k : Nat} (hz : k ≠ 1) (hn : k ≠ 7) (s : State) (r : Byte) :
    (s.setZN r).p.getLsbD k = s.p.getLsbD k := by
  rw [State.setZN_p, flagWrite_getLsbD_of_ne (f := .negative) hn, flagWrite_getLsbD_of_ne (f := .zero) hz]

theorem State.compare_getLsbD_of_ne {k : Nat} (hc : k ≠ 0) (hz : k ≠ 1) (hn : k ≠ 7) (s : State) (m : Byte) :
    (s.compare m).p.getLsbD k = s.p.getLsbD k := by
  rw [State.compare, State.setZN_getLsbD_of_ne hz hn, State.setFlag_p, flagWrite_getLsbD_of_ne (f := .carry) hc]

/-- Settles O27: a load writes A, a compare C, a transfer or increment X, each with Z and N, and the halt the run
state. -/
theorem instructionFrame : Obligations.InstructionFrame := by
  intro i s
  have hZN (r : Byte) (k : Nat) (hz : k ≠ 1) (hn : k ≠ 7) : (s.setZN r).p.getLsbD k = s.p.getLsbD k :=
    State.setZN_getLsbD_of_ne hz hn s r
  rcases exec_cases i s with ⟨op, _, hm, h⟩ | ⟨op, _, hm, h⟩ | ⟨rfl, h⟩ | ⟨rfl, h⟩ | ⟨rfl, h⟩
  · exact ⟨_, h.trans (runHandler_load i.width op s), rfl, rfl, rfl, fun _ => rfl, fun hn => absurd hm hn,
      fun _ _ => rfl, fun _ => rfl, fun k _ => hZN _ k, fun _ => hZN _ 0 (by decide) (by decide),
      fun hb => nomatch hm.symm.trans hb⟩
  · exact ⟨_, h.trans (runHandler_compare i.width op s), rfl, rfl, rfl, fun _ => rfl, fun _ => rfl, fun _ _ => rfl,
      fun _ => rfl, fun k hc hz hn => State.compare_getLsbD_of_ne hc hz hn s _, fun hn => absurd hm hn,
      fun hb => nomatch hm.symm.trans hb⟩
  · exact ⟨_, h, rfl, rfl, rfl, fun _ => rfl, fun _ => rfl, fun hn => absurd rfl hn, fun _ => rfl,
      fun k _ => hZN _ k, fun _ => hZN _ 0 (by decide) (by decide), nofun⟩
  · exact ⟨_, h, rfl, rfl, rfl, fun _ => rfl, fun _ => rfl, fun _ hn => absurd rfl hn, fun _ => rfl,
      fun k _ => hZN _ k, fun _ => hZN _ 0 (by decide) (by decide), nofun⟩
  · exact ⟨_, h, rfl, rfl, rfl, fun _ => rfl, fun _ => rfl, fun _ _ => rfl, fun hn => absurd rfl hn,
      fun _ _ _ _ => rfl, fun _ => rfl, fun _ => rfl⟩

/-! ### What a run leaves (10_state.md R13, R16; 60_exceptions.md R140) -/

/-- `t` reads as `s` does at every address, and agrees with it on Y, SP and the flags I, D, B, U and V. -/
def State.InertAlike (s t : State) : Prop :=
  (∀ q, t.readByte q = s.readByte q) ∧ t.y = s.y ∧ t.sp = s.sp ∧
    ∀ k, 2 ≤ k → k ≤ 6 → t.p.getLsbD k = s.p.getLsbD k

theorem State.InertAlike.refl (s : State) : s.InertAlike s := ⟨fun _ => rfl, rfl, rfl, fun _ _ _ => rfl⟩

theorem State.InertAlike.trans {s t u : State} (hst : s.InertAlike t) (htu : t.InertAlike u) : s.InertAlike u := by
  obtain ⟨hmem, hy, hsp, hp⟩ := hst
  obtain ⟨hmem', hy', hsp', hp'⟩ := htu
  exact ⟨fun q => (hmem' q).trans (hmem q), hy'.trans hy, hsp'.trans hsp,
    fun k hlow hhigh => (hp' k hlow hhigh).trans (hp k hlow hhigh)⟩

theorem exec_inertAlike (i : Instr) (s : State) : ∃ t, exec i s = .next t ∧ s.InertAlike t := by
  obtain ⟨t, h, hy, hsp, _, hmem, _, _, _, hp, _⟩ := instructionFrame i s
  exact ⟨t, h, hmem, hy, hsp, fun k hlow hhigh => hp k (by omega) (by omega) (by omega)⟩

/-- A step that runs no instruction moves PC, the run state and the report at most. -/
theorem engineStep_inertAlike (tw : TopWrap) (s : State) : ∃ t, engineStep tw s = .next t ∧ s.InertAlike t := by
  rcases engineStep_cases tw s with ⟨_, h⟩ | ⟨_, _, h⟩ | ⟨_, _, _, h⟩ | ⟨_, _, _, _, _, _, h⟩ | ⟨i, _, _, _, _, _, h⟩
  · exact ⟨_, h, .refl s⟩
  · exact ⟨_, h, .refl s⟩
  · exact ⟨_, h, .refl s⟩
  · exact ⟨_, h, .refl s⟩
  · rw [h]
    exact exec_inertAlike i s

theorem stepState_inertAlike (tw : TopWrap) (s : State) : s.InertAlike (stepState tw s) := by
  obtain ⟨t, h, hkeeps⟩ := engineStep_inertAlike tw s
  rwa [stepState_of_next h]

/-- What every step keeps, a run that returns has kept: it ends in the state after a step. -/
theorem runFor_inertAlike {tw : TopWrap} {n : Nat} {s t : State} {o : RunOutcome}
    (hrun : runFor tw n s = some (o, t)) : s.InertAlike t := by
  induction n generalizing s with
  | zero => cases hrun
  | succ n ih =>
    have hstep := stepState_inertAlike tw s
    by_cases hc : stepOutcome s (stepState tw s) = .continues
    · rw [runFor_succ_of_continues n hc] at hrun
      exact hstep.trans (ih hrun)
    · rw [runFor_succ_of_stops n hc, hostStep_eq] at hrun
      cases hrun
      exact hstep

/-- Settles O47: no instruction and no fault writes any of it. -/
theorem runKeepsMemoryYSpInertFlags : Obligations.RunKeepsMemoryYSpInertFlags :=
  fun _ _ _ _ _ hrun => runFor_inertAlike hrun

end Machine

end Sys2Proof
end

section
/-! PROOFS. The statement of 42_transfer.md, and what holds of every instruction that is its opcode byte alone: what a
step that runs it reads, and the overrun in its place at the top of the space. -/

namespace Sys2Proof.Machine

/-! ### An instruction of one byte (30_encoding.md R55; 40_engine.md R81, R90) -/

/-- The byte at PC alone decides, whatever follows it. -/
theorem decode_fetchWindow_of_encode_singleton {i : Instr} {s : State} (hbyte : encode i = [s.readByte s.pc]) :
    decode s.fetchWindow = .ok (i, [s.readByte (s.pc + 1), s.readByte (s.pc + 2)]) := by
  rw [State.fetchWindow, ← List.singleton_append, ← hbyte, decode_encode_append]

/-- Whether the step executes or overruns, the opcode byte is all it reads. -/
theorem stepAccesses_of_encode_singleton {i : Instr} {s : State} (tw : TopWrap) (hr : s.rs = .running)
    (hbyte : encode i = [s.readByte s.pc]) (hnone : instrAccesses i s = []) : stepAccesses tw s = [s.pc] := by
  simp only [stepAccesses, hr, decode_fetchWindow_of_encode_singleton hbyte, hnone, ite_self]

/-- Point 2 of R81: whatever byte stands at 0xFFFF, a step faults there before it executes. -/
theorem step_at_top {s : State} (hr : s.rs = .running) (htop : s.pc = 0xFFFF) :
    step s = .next { s with rs := .halted, err := some ⟨.addressOverrun, s.readByte s.pc, 0xFFFF⟩ } := by
  have hstep : step s = .next (s.raise .addressOverrun (s.readByte s.pc) s.pc) :=
    engineStep_fetchOverrun hr (fetchOverruns_eq_true.2 ⟨rfl, htop⟩)
  rw [hstep, State.raise, htop]

/-! ### The transfer (42_transfer.md R110) -/

/-- Everything an implied handler does that writes X with a byte and applies `SetZN` to it. -/
theorem runHandler_setX_setZN {handler : State → State} {v : Byte} {s : State}
    (h : handler (s.advancePc 1) = ((s.advancePc 1).setX v).setZN v) :
    runHandler 0 handler s = .next { s with x := v, p := statusAfterResult s.p v, pc := s.pc + 1 } := by
  rw [runHandler, h, State.setZN_eq_statusAfterResult]
  simp [State.setX, State.advancePc]

/-- Settles O13: the handler writes X with A and describes it in Z and N, and there is no operand to read. -/
theorem taxResult : Obligations.TaxResult := by
  refine ⟨decode_encode_append .tax, fun s => runHandler_setX_setZN rfl, fun tw s hr hbyte => ?_,
    fun s hr hbyte htop => ?_⟩
  · exact stepAccesses_of_encode_singleton (i := .tax) tw hr (by rw [hbyte]; rfl) rfl
  · rw [step_at_top hr htop, hbyte]

end Sys2Proof.Machine
end

section
/-! PROOFS. The statement of 43_increment.md. -/

namespace Sys2Proof.Machine

/-! ### The increment (43_increment.md R115) -/

/-- The increment of a byte in plain numbers: 0xFF wraps to 0x00. -/
theorem Byte.add_one_eq_ofNat (b : Byte) : b + 1 = BitVec.ofNat 8 ((b.toNat + 1) % 256) :=
  BitVec.eq_of_toNat_eq (by simp)

/-- Settles O14: the handler writes X with its successor mod 256 and describes it in Z and N, and there is no operand
to read. -/
theorem inxResult : Obligations.InxResult := by
  refine ⟨decode_encode_append .inx, fun s => ?_, fun tw s hr hbyte => ?_, fun s hr hbyte htop => ?_⟩
  · rw [← Byte.add_one_eq_ofNat]
    exact runHandler_setX_setZN rfl
  · exact stepAccesses_of_encode_singleton (i := .inx) tw hr (by rw [hbyte]; rfl) rfl
  · rw [step_at_top hr htop, hbyte]

end Sys2Proof.Machine
end

section
/-! PROOFS. The statements of 44_compare.md: the eight compare forms from every state, and the flags of each by the
order of A and the operand as numbers. -/

namespace Sys2Proof.Machine

/-! ### The flags of a compare (44_compare.md R120) -/

/-- The packed form is a carry write under the packed `SetZN` of the difference, as R120 composes them. -/
theorem statusAfterCompare_eq (p acc m : Byte) :
    statusAfterCompare p acc m = statusAfterResult (flagWrite p .carry (decide (m ≤ acc))) (acc - m) := by
  have hcarry : flagWrite p .carry (decide (m ≤ acc)) &&& 0x7D =
      (p &&& 0x7C) ||| (if m.toNat ≤ acc.toNat then 0x01 else 0x00) := by
    by_cases h : m ≤ acc
    · rw [if_pos (BitVec.le_def.1 h)]
      simp [flagWrite, Flag.mask, h, BitVec.and_or_distrib_right, BitVec.and_assoc]
    · rw [if_neg (mt BitVec.le_def.2 h)]
      simp [flagWrite, Flag.mask, h, BitVec.and_assoc]
  have hzero : acc - m = 0x00 ↔ acc = m := sub_eq_zero
  simp only [statusAfterCompare, statusAfterResult, hcarry, hzero]

theorem State.compare_p (s : State) (m : Byte) : (s.compare m).p = statusAfterCompare s.p s.a m := by
  rw [State.compare, State.setZN_eq_statusAfterResult, statusAfterCompare_eq, State.setFlag_p]

theorem State.compare_carry (s : State) (m : Byte) :
    (s.compare m).p.getLsbD 0 = decide (m.toNat ≤ s.a.toNat) :=
  State.flag_compare s m .carry

theorem State.compare_zero (s : State) (m : Byte) :
    (s.compare m).p.getLsbD 1 = decide (s.a.toNat = m.toNat) := by
  rw [(State.compare_describes s m).1, Bool.eq_iff_iff, beq_iff_eq, decide_eq_true_iff, ← BitVec.toNat_eq]
  exact sub_eq_zero

theorem State.compare_negative (s : State) (m : Byte) :
    (s.compare m).p.getLsbD 7 = decide (128 ≤ (256 - m.toNat + s.a.toNat) % 256) := by
  rw [(State.compare_describes s m).2, ← BitVec.msb_eq_getLsbD_last (s.a - m), BitVec.msb_eq_decide, BitVec.toNat_sub]

/-- Settles O24: C and Z are the order of the two numbers, and the order says whether their difference mod 256 has
borrowed, which gives N. -/
theorem compareRelations : Obligations.CompareRelations := by
  intro i op s hm hop
  have ha := s.a.isLt
  have hv := (op.value s).isLt
  refine ⟨_, exec_of_cmp hm hop s, rfl, fun habove => ?_, fun hequal => ?_, fun hbelow => ?_⟩ <;>
    simp only [State.compare_carry, State.compare_zero, State.compare_negative, decide_eq_true_eq,
      decide_eq_false_iff_not, decide_eq_decide] <;> omega

/-! ### The compare forms (44_compare.md R121 to R128) -/

/-- A compare form compares A with the value of its operand, and PC goes past the encoding. -/
theorem comparesByte_of_operand {i : Instr} {op : Operand} {bytes : List Byte} {value : State → Byte}
    (hm : i.mnemonic = .cmp) (hop : instrOperand i = some op) (hbytes : encode i = bytes)
    (hvalue : ∀ s, op.value s = value s) : ComparesByte i bytes value := by
  subst hbytes
  refine ⟨decode_encode_append i, fun s => ?_⟩
  rw [exec_of_cmp hm hop, State.compare_p, hvalue, encode_length, BitVec.ofNat_add, BitVec.add_assoc]

/-- Settles O16: the operand byte is the value. -/
theorem cmpImmediateResult : Obligations.CmpImmediateResult :=
  fun _ => comparesByte_of_operand rfl rfl rfl fun _ => rfl

/-- Settles O17: the operand byte is a zero-page address. -/
theorem cmpZeroPageResult : Obligations.CmpZeroPageResult :=
  fun nn => comparesByte_of_operand rfl rfl rfl (Operand.value_zeroPage nn)

/-- Settles O18: the sum with X stays in the zero page. -/
theorem cmpZeroPageXResult : Obligations.CmpZeroPageXResult :=
  fun nn => comparesByte_of_operand rfl rfl rfl (Operand.value_zeroPageX nn)

/-- Settles O19: the two operand bytes are the address, low byte first. -/
theorem cmpAbsoluteResult : Obligations.CmpAbsoluteResult := fun ll hh =>
  comparesByte_of_operand rfl rfl (congrArg (0xCD :: ·) (bytesOf16_ofNat ll hh)) fun s => by
    rw [Operand.value_absolute, operand16_toNat]

/-- Settles O20: the sum with X is an address mod 65536. -/
theorem cmpAbsoluteXResult : Obligations.CmpAbsoluteXResult := fun ll hh =>
  comparesByte_of_operand rfl rfl (congrArg (0xDD :: ·) (bytesOf16_ofNat ll hh)) fun s => by
    rw [Operand.value_absoluteX, operand16_toNat]

/-- Settles O21: the sum with Y is an address mod 65536. -/
theorem cmpAbsoluteYResult : Obligations.CmpAbsoluteYResult := fun ll hh =>
  comparesByte_of_operand rfl rfl (congrArg (0xD9 :: ·) (bytesOf16_ofNat ll hh)) fun s => by
    rw [Operand.value_absoluteY, operand16_toNat]

/-- Settles O22: the pointer stands in the zero page at the sum with X. -/
theorem cmpIndirectXResult : Obligations.CmpIndirectXResult :=
  fun nn => comparesByte_of_operand rfl rfl rfl (Operand.value_indirectX nn)

/-- Settles O23: Y is added to the pointer that stands in the zero page. -/
theorem cmpIndirectYResult : Obligations.CmpIndirectYResult :=
  fun nn => comparesByte_of_operand rfl rfl rfl (Operand.value_indirectY nn)

end Sys2Proof.Machine
end

section
/-! PROOFS. The statement of 45_halt.md. -/

namespace Sys2Proof.Machine

/-! ### The step of an instruction of one byte, short of the top (40_engine.md R81) -/

/-- Where the fetch fits, so does the successor: there is no operand byte to make room for. -/
theorem engineStep_of_encode_singleton {tw : TopWrap} {i : Instr} {s : State} (hr : s.rs = .running)
    (hbyte : encode i = [s.readByte s.pc]) (hroom : tw = .wrap ∨ s.pc ≠ 0xFFFF) : engineStep tw s = exec i s := by
  have hwidth : 1 + i.width = 1 := by rw [← encode_length, hbyte, List.length_singleton]
  refine (stepRunsDecodedInstruction tw s i _ hr (decode_fetchWindow_of_encode_singleton hbyte) fun htw => ?_).1
  have hpc : s.pc ≠ 0xFFFF := hroom.resolve_left fun h => nomatch htw.symm.trans h
  bv_omega

/-! ### The halt (45_halt.md R130; 40_engine.md R84) -/

/-- The invariant gives a Running engine no report. -/
theorem State.Inv.err_eq_none {s : State} (hs : s.Inv) (hr : s.rs = .running) : s.err = none :=
  Option.eq_none_iff_forall_ne_some.2 fun f hf => nomatch hr.symm.trans (hs.2 f hf).1

/-- `Halt` is the outcome of a step that halts the engine without a report. -/
theorem hostStep_of_halts {tw : TopWrap} {s t : State} (hstep : engineStep tw s = .next t) (hr : s.rs = .running)
    (hhalted : t.rs = .halted) (herr : t.err = none) : hostStep tw s = (.halt, t) := by
  rw [hostStep_eq, stepState_of_next hstep, stepOutcome_eq_halt.2 ⟨hr, hhalted, herr⟩]

/-- Settles O15: the meaning writes PC and the run state alone, so the step halts with the report it found, which is
none under the invariant. -/
theorem brkResult : Obligations.BrkResult := by
  have hencode {s : State} (hbyte : s.readByte s.pc = 0x00) : encode .brk = [s.readByte s.pc] := by rw [hbyte]; rfl
  refine ⟨decode_encode_append .brk, fun _ => rfl, fun tw s hs hr hbyte hroom => ?_, fun tw s hr hbyte => ?_,
    fun s hr hbyte htop => ?_⟩
  · exact hostStep_of_halts (engineStep_of_encode_singleton hr (hencode hbyte) hroom) hr rfl (hs.err_eq_none hr)
  · exact stepAccesses_of_encode_singleton tw hr (hencode hbyte) rfl
  · rw [step_at_top hr htop, hbyte]

end Sys2Proof.Machine
end

section
/-! PROOFS. The statements of 60_exceptions.md: the two faults a step raises and when, what a fault leaves, and the
invariant that makes every report a true one. -/

namespace Sys2Proof.Machine

/-! ### What a step raises, and what it leaves (60_exceptions.md R140 to R143) -/

/-- A step either raises a fault, whose report is true and names the byte at PC, and moves PC alone beside that; or it
keeps memory and the report. -/
theorem engineStep_raises_or_keeps (tw : TopWrap) (s : State) :
    (∃ kind pc, engineStep tw s = .next (State.raise kind (s.readByte s.pc) s.pc { s with pc := pc }) ∧
      FaultReport.truthful ⟨kind, s.readByte s.pc, s.pc⟩ s ∧ (kind = .addressOverrun → tw = .fault) ∧
      (kind = .addressOverrun ∧ s.pc = 0xFFFF → pc = 0xFFFF) ∧
      (¬ (kind = .addressOverrun ∧ s.pc = 0xFFFF) → pc = s.pc + 1)) ∨
    ∃ t, engineStep tw s = .next t ∧ t.mem = s.mem ∧ t.err = s.err ∧ (s.rs = .halted → t = s) := by
  rcases paramStep_cases (Params.spec tw) s with ⟨_, h⟩ | ⟨_, hf, h⟩ | ⟨_, _, hl, h⟩ |
    ⟨d, i, _, hr, hf, hl, _, _, _, ⟨ho, h⟩ | ⟨_, _, h⟩ | ⟨_, _, h⟩⟩
  · exact .inr ⟨s, h, rfl, rfl, fun _ => rfl⟩
  · obtain ⟨htw, htop⟩ := fetchOverruns_eq_true.1 hf
    exact .inl ⟨.addressOverrun, s.pc, h, ⟨rfl, .inl htop⟩, fun _ => htw, And.right, fun hn => absurd ⟨rfl, htop⟩ hn⟩
  · exact .inl ⟨.unknownOpcode, s.pc + 1, h, ⟨rfl, hl⟩, nofun, nofun, fun _ => rfl⟩
  · obtain ⟨htw, hroom⟩ := successorOverruns_eq_true.1 ho
    have hpc : s.pc ≠ 0xFFFF := fetchOverruns_eq_false.1 hf htw
    exact .inl ⟨.addressOverrun, s.pc + 1, h, ⟨rfl, .inr ⟨d, hl, hroom⟩⟩, fun _ => htw, fun hn => absurd hn.2 hpc,
      fun _ => rfl⟩
  · exact .inr ⟨_, h, rfl, rfl, fun hh => nomatch hr.symm.trans hh⟩
  · obtain ⟨t, ht, _, hmem, herr, _⟩ := exec_control i s
    exact .inr ⟨t, h.trans ht, hmem, herr, fun hh => nomatch hr.symm.trans hh⟩

/-- Canonical memory is all the invariant asks where there is no report. -/
theorem State.Inv.of_err_eq_none {s : State} (hmem : s.mem.wf) (herr : s.err = none) : s.Inv :=
  ⟨hmem, fun _ hf => nomatch herr.symm.trans hf⟩

/-- Settles O43: a fault leaves memory and a true report of it, and any other step of a Running engine, which the
invariant gives no report, leaves it without one. -/
theorem stepKeepsInvariant : Obligations.StepKeepsInvariant := by
  intro tw s t hs hstep
  rcases engineStep_raises_or_keeps tw s with ⟨kind, pc, h, htrue, _⟩ | ⟨u, h, hmem, herr, hhalted⟩
  · cases hstep.symm.trans h
    refine ⟨hs.1, fun f hf => ?_⟩
    cases hf
    exact ⟨rfl, htrue⟩
  · cases hstep.symm.trans h
    rcases hr : s.rs with _ | _
    · rwa [hhalted hr]
    · exact .of_err_eq_none (hmem ▸ hs.1) (herr.trans (hs.err_eq_none hr))

/-! ### The two faults (60_exceptions.md R141, R143) -/

/-- Settles O30: a byte outside the 19 has no descriptor, and the step looks it up before all but the fetch. -/
theorem unknownOpcodeFaults : Obligations.UnknownOpcodeFaults := by
  intro tw s hr hbyte hfits
  have hl : iset (s.readByte s.pc) = none :=
    Option.eq_none_iff_forall_ne_some.2 fun d hd => hbyte (mem_tableOpcodes_iff.2 ⟨d, hd⟩)
  have hstep : engineStep tw s = .next ((s.advancePc 1).raise .unknownOpcode (s.readByte s.pc) s.pc) :=
    paramStep_unknownOpcode (pr := Params.spec tw) hr (fetchOverruns_eq_false.2 hfits) hl
  refine ⟨hstep, ?_⟩
  rw [hostStep_eq, stepState_of_next hstep]
  exact stepOutcome_eq_fault.2 ⟨hr, rfl, rfl⟩

/-- Under `TOP_WRAP = wrap` the report of an overrun can only be one from before the step. -/
theorem err_of_addressOverrun_of_wrap {s t : State} {f : FaultReport} (hstep : engineStep .wrap s = .next t)
    (hf : t.err = some f) (hkind : f.kind = .addressOverrun) : s.err = some f := by
  rcases engineStep_raises_or_keeps .wrap s with ⟨kind, pc, h, _, hfault, _⟩ | ⟨u, h, _, herr, _⟩
  · cases hstep.symm.trans h
    cases hf
    cases hfault hkind
  · cases hstep.symm.trans h
    exact herr.symm.trans hf

/-- Settles O31: the overruns of the fetch and of the successor, the host's access at the top of the space, and that
under `wrap` there is no top to pass. -/
theorem addressOverrunFaults : Obligations.AddressOverrunFaults := by
  refine ⟨fun s hr htop => ?_, fun s d hr hpc hl hroom => ?_, fun _ _ => ⟨rfl, rfl⟩,
    fun _ _ _ => err_of_addressOverrun_of_wrap, fun s a v => ⟨⟨s.readWord a, ?_⟩, s.writeWord a v, ?_⟩⟩
  · rw [step_at_top hr htop, htop]
  · exact paramStep_successorOverrun (pr := Params.spec .fault) hr (fetchOverruns_eq_false.2 fun _ => hpc) hl
      (successorOverruns_eq_true.2 ⟨rfl, hroom⟩)
  · rw [hostRead16, State.read16_of_fits (tw := .wrap) nofun]
  · simp only [hostWrite, State.write16_of_fits (tw := .wrap) nofun]

/-! ### Faults are precise (60_exceptions.md R140) -/

/-- Settles O32: the invariant gives the engine no report before the step, so the step has raised the one it returns. -/
theorem faultsArePrecise : Obligations.FaultsArePrecise := by
  intro tw s t f hs hstep
  rw [hostStep_eq, Prod.mk.injEq, stepOutcome_eq_fault] at hstep
  obtain ⟨⟨hr, hrs, hf⟩, rfl⟩ := hstep
  rcases engineStep_raises_or_keeps tw s with ⟨kind, pc, h, _, _, htop, hnext⟩ | ⟨u, h, _, herr, _⟩
  · rw [stepState_of_next h] at hf hrs ⊢
    cases hf
    exact ⟨rfl, rfl, rfl, rfl, rfl, rfl, rfl, rfl, rfl, rfl, htop, hnext, hostStep_halted hrs⟩
  · rw [stepState_of_next h, herr, hs.err_eq_none hr] at hf
    cases hf

end Sys2Proof.Machine
end

section
/-! PROOFS. The statements of 70_reset_and_hazards.md: what `reset` leaves, the constructed engine that is reset without
a load, and boot. -/

namespace Sys2Proof.Machine

/-! ### Reset (70_reset_and_hazards.md R162) -/

@[simp] theorem resetOp_rs (s : State) : (resetOp s).rs = .running := rfl
@[simp] theorem resetOp_readByte (s : State) (q : Addr) : (resetOp s).readByte q = s.readByte q := rfl

/-- Settles O56: the vector is the word of the bytes at 0xFFFC and 0xFFFD, as a number. -/
theorem resetValues : Obligations.ResetValues := by
  intro s
  rw [resetOp, State.readWord, word16_eq]
  rfl

/-! ### Reset without a load (70_reset_and_hazards.md R160, R165) -/

theorem State.powerOn_readByte (q : Addr) : State.powerOn.readByte q = 0x00 := rfl

/-- The zero fill at PC is the halt opcode. -/
theorem hostStep_reset : hostStep topWrap State.reset = (.halt, (State.reset.advancePc 1).halt) :=
  hostStep_of_halts (engineStep_of_encode_singleton (i := .brk) rfl rfl (.inr (by decide))) rfl rfl rfl

/-- A run returns what its first step does, where that step halts. -/
theorem run_of_hostStep_halt {s t : State} (h : hostStep topWrap s = (.halt, t)) : run s = some (.halt, t) := by
  rw [run, runFor_succ topWrap 65535, h]

/-- Settles O57: `reset` finds the zero fill at the vector, so the run begins at 0x0000 and ends there by the zero
fill. -/
theorem resetWithoutLoadHalts : Obligations.ResetWithoutLoadHalts :=
  ⟨State.powerOn_readByte, rfl, rfl, rfl, rfl, _, run_of_hostStep_halt hostStep_reset, hostStep_reset,
    rfl, rfl, rfl, rfl, rfl⟩

/-! ### Boot (70_reset_and_hazards.md R163, 20_memory.md R40) -/

/-- Settles O58: the vector `load` writes takes PC to the image, whose bytes there are the encoding of its first
instruction, below the vector. -/
theorem bootRunsFirstInstruction : Obligations.BootRunsFirstInstruction := by
  intro i rest s hs hlen
  obtain ⟨t, hload, himage, hlow, hhigh, -⟩ := (loadPlacesImageAndVector (encode i ++ rest) s hs).1 (by omega)
  have hpc : (resetOp t).pc = 0x8000 := by rw [resetValues t, hlow, hhigh]; rfl
  have hroom : (resetOp t).pc.toNat + 1 + i.width ≤ 0xFFFF := by
    have hwidth := i.width_le_two
    rw [hpc, show (0x8000 : Addr).toNat = 0x8000 from rfl]
    omega
  have hbytes (k : Nat) (hk : k < (encode i).length) :
      (resetOp t).readByte ((resetOp t).pc + BitVec.ofNat 16 k) = (encode i)[k] := by
    rw [List.length_append] at hlen
    have hbyte := himage k (by rw [List.length_append]; omega) (by omega) (by omega)
    rw [List.getElem_append_left hk, BitVec.ofNat_add] at hbyte
    rwa [hpc, resetOp_readByte]
  exact ⟨t, hload, hpc, resetOp_rs t, step_of_encode_at_pc (resetOp_rs t) hroom hbytes⟩

end Sys2Proof.Machine
end
